-- ==== Sys2Proof/Word.lean ====
section
/-! DEFINITION. The widths of the core's quantities (00_scope.md R5, R10): every value is an unsigned number of a stated width. -/

namespace Sys2Proof

/-- An 8-bit quantity: a byte of memory, a register `V[i]`, a timer, the immediate `kk`, the random input. -/
abbrev Byte := BitVec 8

/-- A 16-bit quantity: an opcode, `I`, `pc`, a return-stack entry. -/
abbrev Word := BitVec 16

/-- A 4-bit slice of an opcode (glossary, R14). -/
abbrev Nibble := BitVec 4

/-- A register index taken from an opcode nibble, 0..15: it can never be out of range (R21). -/
abbrev Reg := BitVec 4

/-- The 12-bit address field `nnn` (R9). -/
abbrev Addr := BitVec 12

/-- The 16 key levels of a step: bit `k` is `key[k]`, 1 = pressed (R32). -/
abbrev Keys := BitVec 16

end Sys2Proof
end

