-- ==== Sys2Proof/Syntax.lean ====
section
/-! DEFINITION. The instructions: one constructor per row of spec/opcode_table.json, in the table's order (30_encoding.md R76, R82).
Fields are those of the table; an ignored bit of an assigned row is no field. The four rows of unassigned codes
carry the twelve bits below the family nibble, which select nothing (R78, R95; log entry 6). -/

namespace Sys2Proof

inductive Instr where
  | cls                                  -- 00E0
  | ret                                  -- 00EE
  | jp (nnn : Addr)                      -- 1nnn
  | call (nnn : Addr)                    -- 2nnn
  | seI (x : Reg) (kk : Byte)            -- 3xkk
  | sneI (x : Reg) (kk : Byte)           -- 4xkk
  | seR (x y : Reg)                      -- 5xy0
  | sneR (x y : Reg)                     -- 9xy0
  | ldI (x : Reg) (kk : Byte)            -- 6xkk
  | addI (x : Reg) (kk : Byte)           -- 7xkk
  | ldR (x y : Reg)                      -- 8xy0
  | orR (x y : Reg)                      -- 8xy1
  | andR (x y : Reg)                     -- 8xy2
  | xorR (x y : Reg)                     -- 8xy3
  | addR (x y : Reg)                     -- 8xy4
  | sub (x y : Reg)                      -- 8xy5
  | shr (x y : Reg)                      -- 8xy6
  | subn (x y : Reg)                     -- 8xy7
  | shl (x y : Reg)                      -- 8xyE
  | ldIndex (nnn : Addr)                 -- Annn
  | jpV0 (nnn : Addr)                    -- Bnnn
  | rnd (x : Reg) (kk : Byte)            -- Cxkk
  | drw (x y : Reg) (n : Nibble)         -- Dxyn
  | skp (x : Reg)                        -- Ex9E
  | sknp (x : Reg)                       -- ExA1
  | ldFromDT (x : Reg)                   -- Fx07
  | ldDT (x : Reg)                       -- Fx15
  | ldST (x : Reg)                       -- Fx18
  | ldKey (x : Reg)                      -- Fx0A
  | addIndex (x : Reg)                   -- Fx1E
  | ldFont (x : Reg)                     -- Fx29
  | ldBcd (x : Reg)                      -- Fx33
  | ldMem (x : Reg)                      -- Fx55
  | ldRegs (x : Reg)                     -- Fx65
  | nop0 (code : BitVec 12)              -- family 0x0, unassigned low nibble
  | nop8 (code : BitVec 12)              -- family 0x8, unassigned low nibble
  | nopE (code : BitVec 12)              -- family 0xE, unassigned low nibble
  | nopF (code : BitVec 12)              -- family 0xF, unassigned low byte
  deriving DecidableEq, Repr

end Sys2Proof
end

