-- ==== Sys2Proof/WellFormed.lean ====
section
/-! DEFINITION. Which instruction terms stand for a word. Register indexes, immediates and addresses are bounded by their types;
what is left is that the code of a no-op row really is unassigned (30_encoding.md R78). -/

namespace Sys2Proof

/-- The low nibble of a 12-bit code: the secondary code of families 0x0, 0x8 and 0xE (R75). -/
abbrev codeNibble (code : BitVec 12) : Nibble := code.extractLsb' 0 4

/-- The low byte of a 12-bit code: the secondary code of family 0xF (R74). -/
abbrev codeByte (code : BitVec 12) : Byte := code.extractLsb' 0 8

/-- The secondary codes of family 0x0 that select an instruction: `00E0`, `00EE` (R76). -/
def assigned0 : List Nibble := [0x0, 0xE]

/-- The secondary codes of family 0x8 that select an instruction: `8xy0`..`8xy7`, `8xyE` (R76). -/
def assigned8 : List Nibble := [0x0, 0x1, 0x2, 0x3, 0x4, 0x5, 0x6, 0x7, 0xE]

/-- The secondary codes of family 0xE that select an instruction: `Ex9E`, `ExA1` (R76). -/
def assignedE : List Nibble := [0xE, 0x1]

/-- The secondary codes of family 0xF that select an instruction (R76). -/
def assignedF : List Byte := [0x07, 0x0A, 0x15, 0x18, 0x1E, 0x29, 0x33, 0x55, 0x65]

/-- The check: a no-op carries a code of its family that R76 does not assign (R78). -/
def Instr.wf : Instr → Bool
  | .nop0 code => !assigned0.contains (codeNibble code)
  | .nop8 code => !assigned8.contains (codeNibble code)
  | .nopE code => !assignedE.contains (codeNibble code)
  | .nopF code => !assignedF.contains (codeByte code)
  | .cls | .ret | .jp _ | .call _ | .seI _ _ | .sneI _ _ | .seR _ _ | .sneR _ _ | .ldI _ _ | .addI _ _
  | .ldR _ _ | .orR _ _ | .andR _ _ | .xorR _ _ | .addR _ _ | .sub _ _ | .shr _ _ | .subn _ _ | .shl _ _
  | .ldIndex _ | .jpV0 _ | .rnd _ _ | .drw _ _ _ | .skp _ | .sknp _ | .ldFromDT _ | .ldDT _ | .ldST _
  | .ldKey _ | .addIndex _ | .ldFont _ | .ldBcd _ | .ldMem _ | .ldRegs _ => true

end Sys2Proof
end

