-- ==== Sys2Proof/Decode.lean ====
section
/-! DEFINITION. The two-level decode (30_encoding.md R73 to R75), the decoder on bytes, and after it the encoder (R71, R76),
the mask/match rows of the table (R76, R82) and the host's entry point. -/

namespace Sys2Proof

/-! ### The fields of an opcode (00_scope.md R9) -/

/-- `fam = op[15:12]`. -/
def famOf (op : Word) : Nibble := op.extractLsb' 12 4
/-- `x = op[11:8]`. -/
def xOf (op : Word) : Reg := op.extractLsb' 8 4
/-- `y = op[7:4]`. -/
def yOf (op : Word) : Reg := op.extractLsb' 4 4
/-- `n = op[3:0]`. -/
def nOf (op : Word) : Nibble := op.extractLsb' 0 4
/-- `kk = op[7:0]`. -/
def kkOf (op : Word) : Byte := op.extractLsb' 0 8
/-- `nnn = op[11:0]`. -/
def nnnOf (op : Word) : Addr := op.extractLsb' 0 12

/-! ### Decoding -/

/-- Level 2 of family 0x0: the secondary code is the low nibble (R74, R75). -/
def decode0 (op : Word) : Instr :=
  match nOf op with
  | 0x0#4 => .cls
  | 0xE#4 => .ret
  | _ => .nop0 (nnnOf op)

/-- Level 2 of family 0x8: the secondary code is the low nibble (R74, R75). -/
def decode8 (op : Word) : Instr :=
  match nOf op with
  | 0x0#4 => .ldR (xOf op) (yOf op)
  | 0x1#4 => .orR (xOf op) (yOf op)
  | 0x2#4 => .andR (xOf op) (yOf op)
  | 0x3#4 => .xorR (xOf op) (yOf op)
  | 0x4#4 => .addR (xOf op) (yOf op)
  | 0x5#4 => .sub (xOf op) (yOf op)
  | 0x6#4 => .shr (xOf op) (yOf op)
  | 0x7#4 => .subn (xOf op) (yOf op)
  | 0xE#4 => .shl (xOf op) (yOf op)
  | _ => .nop8 (nnnOf op)

/-- Level 2 of family 0xE: the secondary code is the low nibble (R74, R75). -/
def decodeE (op : Word) : Instr :=
  match nOf op with
  | 0xE#4 => .skp (xOf op)
  | 0x1#4 => .sknp (xOf op)
  | _ => .nopE (nnnOf op)

/-- Level 2 of family 0xF: the secondary code is the low byte (R74). -/
def decodeF (op : Word) : Instr :=
  match kkOf op with
  | 0x07#8 => .ldFromDT (xOf op)
  | 0x0A#8 => .ldKey (xOf op)
  | 0x15#8 => .ldDT (xOf op)
  | 0x18#8 => .ldST (xOf op)
  | 0x1E#8 => .addIndex (xOf op)
  | 0x29#8 => .ldFont (xOf op)
  | 0x33#8 => .ldBcd (xOf op)
  | 0x55#8 => .ldMem (xOf op)
  | 0x65#8 => .ldRegs (xOf op)
  | _ => .nopF (nnnOf op)

/-- Level 1: the top nibble selects the family (R73). Every word decodes (R78, R174). -/
def decodeWord (op : Word) : Instr :=
  match famOf op with
  | 0x0#4 => decode0 op
  | 0x1#4 => .jp (nnnOf op)
  | 0x2#4 => .call (nnnOf op)
  | 0x3#4 => .seI (xOf op) (kkOf op)
  | 0x4#4 => .sneI (xOf op) (kkOf op)
  | 0x5#4 => .seR (xOf op) (yOf op)
  | 0x6#4 => .ldI (xOf op) (kkOf op)
  | 0x7#4 => .addI (xOf op) (kkOf op)
  | 0x8#4 => decode8 op
  | 0x9#4 => .sneR (xOf op) (yOf op)
  | 0xA#4 => .ldIndex (nnnOf op)
  | 0xB#4 => .jpV0 (nnnOf op)
  | 0xC#4 => .rnd (xOf op) (kkOf op)
  | 0xD#4 => .drw (xOf op) (yOf op) (nOf op)
  | 0xE#4 => decodeE op
  | _ => decodeF op

/-- Why a byte sequence gives no instruction. -/
inductive DecodeError where
  /-- Fewer than the two bytes every instruction has (R70). No word is ever rejected (R174). -/
  | truncated
  deriving DecidableEq, Repr

/-- The opcode of two fetched bytes: the byte at the lower address is `op[15:8]` (R8, R52). -/
def wordOfBytes (hi lo : Byte) : Word := hi ++ lo

/-- The decoder on bytes: the instruction and the bytes after it. -/
def decode : List Byte → Except DecodeError (Instr × List Byte)
  | hi :: lo :: rest => .ok (decodeWord (wordOfBytes hi lo), rest)
  | [_] => .error .truncated
  | [] => .error .truncated

/-! ### Encoding: the canonical word of each instruction (R71, R76) -/

/-- Format `NNN`: family and twelve address bits; also the unassigned codes. -/
def encNNN (fam : Nibble) (nnn : BitVec 12) : Word := fam ++ nnn
/-- Format `XKK`: family, `x`, an 8-bit immediate; also `XS1` and `XS2`, whose low byte is the secondary code. -/
def encXKK (fam : Nibble) (x : Reg) (kk : Byte) : Word := (fam ++ x : BitVec 8) ++ kk
/-- Formats `XY`, `XYS`, `XYN`: family, `x`, `y`, and a low nibble. -/
def encXYN (fam : Nibble) (x y : Reg) (n : Nibble) : Word := (fam ++ x : BitVec 8) ++ (y ++ n : BitVec 8)

/-- The word of an instruction, with the ignored bits as the source's patterns print them (R71, R80). -/
def encodeWord : Instr → Word
  | .cls => 0x00E0
  | .ret => 0x00EE
  | .jp nnn => encNNN 0x1 nnn
  | .call nnn => encNNN 0x2 nnn
  | .seI x kk => encXKK 0x3 x kk
  | .sneI x kk => encXKK 0x4 x kk
  | .seR x y => encXYN 0x5 x y 0x0
  | .sneR x y => encXYN 0x9 x y 0x0
  | .ldI x kk => encXKK 0x6 x kk
  | .addI x kk => encXKK 0x7 x kk
  | .ldR x y => encXYN 0x8 x y 0x0
  | .orR x y => encXYN 0x8 x y 0x1
  | .andR x y => encXYN 0x8 x y 0x2
  | .xorR x y => encXYN 0x8 x y 0x3
  | .addR x y => encXYN 0x8 x y 0x4
  | .sub x y => encXYN 0x8 x y 0x5
  | .shr x y => encXYN 0x8 x y 0x6
  | .subn x y => encXYN 0x8 x y 0x7
  | .shl x y => encXYN 0x8 x y 0xE
  | .ldIndex nnn => encNNN 0xA nnn
  | .jpV0 nnn => encNNN 0xB nnn
  | .rnd x kk => encXKK 0xC x kk
  | .drw x y n => encXYN 0xD x y n
  | .skp x => encXKK 0xE x 0x9E
  | .sknp x => encXKK 0xE x 0xA1
  | .ldFromDT x => encXKK 0xF x 0x07
  | .ldDT x => encXKK 0xF x 0x15
  | .ldST x => encXKK 0xF x 0x18
  | .ldKey x => encXKK 0xF x 0x0A
  | .addIndex x => encXKK 0xF x 0x1E
  | .ldFont x => encXKK 0xF x 0x29
  | .ldBcd x => encXKK 0xF x 0x33
  | .ldMem x => encXKK 0xF x 0x55
  | .ldRegs x => encXKK 0xF x 0x65
  | .nop0 code => encNNN 0x0 code
  | .nop8 code => encNNN 0x8 code
  | .nopE code => encNNN 0xE code
  | .nopF code => encNNN 0xF code

/-- The two bytes of a word as they stand in memory, high byte at the lower address (R52). -/
def bytesOfWord (op : Word) : List Byte := [op.extractLsb' 8 8, op.extractLsb' 0 8]

/-- The encoder: the bytes of an instruction. -/
def encode (i : Instr) : List Byte := bytesOfWord (encodeWord i)

/-! ### The rows of the table (R76, R82) -/

/-- One row of the opcode table: a word is the row's when `word & mask = bits`. -/
structure Row where
  mnemonic : String
  mask : Word
  bits : Word
  deriving DecidableEq, Repr

/-- The 34 rows of R76, in its order. -/
def instructionRows : List Row :=
  [ ⟨"CLS", 0xF00F, 0x0000⟩, ⟨"RET", 0xF00F, 0x000E⟩, ⟨"JP", 0xF000, 0x1000⟩, ⟨"CALL", 0xF000, 0x2000⟩,
    ⟨"SE.i", 0xF000, 0x3000⟩, ⟨"SNE.i", 0xF000, 0x4000⟩, ⟨"SE.r", 0xF000, 0x5000⟩, ⟨"SNE.r", 0xF000, 0x9000⟩,
    ⟨"LD.i", 0xF000, 0x6000⟩, ⟨"ADD.i", 0xF000, 0x7000⟩, ⟨"LD.r", 0xF00F, 0x8000⟩, ⟨"OR", 0xF00F, 0x8001⟩ ] ++
  [ ⟨"AND", 0xF00F, 0x8002⟩, ⟨"XOR", 0xF00F, 0x8003⟩, ⟨"ADD.r", 0xF00F, 0x8004⟩, ⟨"SUB", 0xF00F, 0x8005⟩,
    ⟨"SHR", 0xF00F, 0x8006⟩, ⟨"SUBN", 0xF00F, 0x8007⟩, ⟨"SHL", 0xF00F, 0x800E⟩, ⟨"LD.I", 0xF000, 0xA000⟩,
    ⟨"JP.V0", 0xF000, 0xB000⟩, ⟨"RND", 0xF000, 0xC000⟩, ⟨"DRW", 0xF000, 0xD000⟩, ⟨"SKP", 0xF00F, 0xE00E⟩ ] ++
  [ ⟨"SKNP", 0xF00F, 0xE001⟩, ⟨"LD.VxDT", 0xF0FF, 0xF007⟩, ⟨"LD.DT", 0xF0FF, 0xF015⟩, ⟨"LD.ST", 0xF0FF, 0xF018⟩,
    ⟨"LD.K", 0xF0FF, 0xF00A⟩, ⟨"ADD.I", 0xF0FF, 0xF01E⟩, ⟨"LD.F", 0xF0FF, 0xF029⟩, ⟨"LD.B", 0xF0FF, 0xF033⟩,
    ⟨"LD.mem", 0xF0FF, 0xF055⟩, ⟨"LD.regs", 0xF0FF, 0xF065⟩ ]

/-- The four catch-all rows, which come after the others (R82). -/
def catchAllRows : List Row :=
  [ ⟨"NOP.0", 0xF000, 0x0000⟩, ⟨"NOP.8", 0xF000, 0x8000⟩, ⟨"NOP.E", 0xF000, 0xE000⟩, ⟨"NOP.F", 0xF000, 0xF000⟩ ]

/-- The table in priority order (R82). -/
def opcodeRows : List Row := instructionRows ++ catchAllRows

/-- The row's test on a word. -/
def Row.matches (r : Row) (op : Word) : Bool := op &&& r.mask == r.bits

/-- The table's row of an instruction. -/
def rowOf : Instr → Row
  | .cls => ⟨"CLS", 0xF00F, 0x0000⟩
  | .ret => ⟨"RET", 0xF00F, 0x000E⟩
  | .jp _ => ⟨"JP", 0xF000, 0x1000⟩
  | .call _ => ⟨"CALL", 0xF000, 0x2000⟩
  | .seI _ _ => ⟨"SE.i", 0xF000, 0x3000⟩
  | .sneI _ _ => ⟨"SNE.i", 0xF000, 0x4000⟩
  | .seR _ _ => ⟨"SE.r", 0xF000, 0x5000⟩
  | .sneR _ _ => ⟨"SNE.r", 0xF000, 0x9000⟩
  | .ldI _ _ => ⟨"LD.i", 0xF000, 0x6000⟩
  | .addI _ _ => ⟨"ADD.i", 0xF000, 0x7000⟩
  | .ldR _ _ => ⟨"LD.r", 0xF00F, 0x8000⟩
  | .orR _ _ => ⟨"OR", 0xF00F, 0x8001⟩
  | .andR _ _ => ⟨"AND", 0xF00F, 0x8002⟩
  | .xorR _ _ => ⟨"XOR", 0xF00F, 0x8003⟩
  | .addR _ _ => ⟨"ADD.r", 0xF00F, 0x8004⟩
  | .sub _ _ => ⟨"SUB", 0xF00F, 0x8005⟩
  | .shr _ _ => ⟨"SHR", 0xF00F, 0x8006⟩
  | .subn _ _ => ⟨"SUBN", 0xF00F, 0x8007⟩
  | .shl _ _ => ⟨"SHL", 0xF00F, 0x800E⟩
  | .ldIndex _ => ⟨"LD.I", 0xF000, 0xA000⟩
  | .jpV0 _ => ⟨"JP.V0", 0xF000, 0xB000⟩
  | .rnd _ _ => ⟨"RND", 0xF000, 0xC000⟩
  | .drw _ _ _ => ⟨"DRW", 0xF000, 0xD000⟩
  | .skp _ => ⟨"SKP", 0xF00F, 0xE00E⟩
  | .sknp _ => ⟨"SKNP", 0xF00F, 0xE001⟩
  | .ldFromDT _ => ⟨"LD.VxDT", 0xF0FF, 0xF007⟩
  | .ldDT _ => ⟨"LD.DT", 0xF0FF, 0xF015⟩
  | .ldST _ => ⟨"LD.ST", 0xF0FF, 0xF018⟩
  | .ldKey _ => ⟨"LD.K", 0xF0FF, 0xF00A⟩
  | .addIndex _ => ⟨"ADD.I", 0xF0FF, 0xF01E⟩
  | .ldFont _ => ⟨"LD.F", 0xF0FF, 0xF029⟩
  | .ldBcd _ => ⟨"LD.B", 0xF0FF, 0xF033⟩
  | .ldMem _ => ⟨"LD.mem", 0xF0FF, 0xF055⟩
  | .ldRegs _ => ⟨"LD.regs", 0xF0FF, 0xF065⟩
  | .nop0 _ => ⟨"NOP.0", 0xF000, 0x0000⟩
  | .nop8 _ => ⟨"NOP.8", 0xF000, 0x8000⟩
  | .nopE _ => ⟨"NOP.E", 0xF000, 0xE000⟩
  | .nopF _ => ⟨"NOP.F", 0xF000, 0xF000⟩

/-! ### The host's entry point -/

/-- The instruction the decoder reads from a word numbered as the opcode table numbers it: an instruction is one word,
so bit 0 is the least significant bit of the opcode; bits at or above `nbits` are 0. -/
def decodeTableWord (nbits w : Nat) : Option Instr :=
  match decode (bytesOfWord (BitVec.ofNat 16 (w % 2 ^ nbits))) with
  | .ok (i, _) => some i
  | .error _ => none

end Sys2Proof
end

