-- ==== Sys2Proof/Config.lean ====
section
/-! DEFINITION. What the spec fixes as constants (00_scope.md R5), and the two free inputs of a step (R6, R32, R35). -/

namespace Sys2Proof.Config

/-- Bytes of memory (R5): addresses 0..4095. -/
abbrev memSize : Nat := 4096

/-- Entries of the return stack, and the largest value of `sp` (R5). -/
abbrev stackDepth : Nat := 16

/-- Framebuffer columns (R5). -/
abbrev fbWidth : Nat := 64

/-- Framebuffer rows (R5). -/
abbrev fbHeight : Nat := 32

/-- Address of the first glyph byte (R5). -/
abbrev fontBase : Nat := 0x050

/-- Bytes of the font: 16 glyphs of 5 (R5). -/
abbrev fontLen : Nat := 80

/-- Load address of a program and reset value of `pc` (R5). -/
abbrev progBase : Nat := 0x200

/-- The longest loadable program (R5). -/
abbrev progMax : Nat := 3584

/-- FREE VALUE (log entry 1): the 16 key levels the host presents at the `n`-th step for which it supplied no input
beforehand. R32, R96: a free input of every step. No body: nothing can be proved of its value. -/
opaque freeKeys : Nat → Keys

/-- FREE VALUE (log entry 1): the random byte of the `n`-th step for which no input was supplied beforehand.
R35, R96: a free value at every step, under no law. No body: nothing can be proved of its value. -/
opaque freeRandom : Nat → Byte

end Sys2Proof.Config
end

