-- ==== Sys2Proof/Machine/State.lean ====
section
/-! DEFINITION. The state: the nine items of 10_state.md R20 as one type, and beside them the model's own fields for the parameter FONT
and for the inputs and outputs of a step (INVENTORY.md '## State'); the faults of 60_exceptions.md R161; the state after reset (R37). -/

namespace Sys2Proof.Machine

/-- The framebuffer: 32 rows from the top, each 64 pixels from the left, `true` = lit (R31). -/
abbrev Framebuffer := Vector (Vector Bool Config.fbWidth) Config.fbHeight

/-- The two inputs of a step (R96): the key levels and the random byte. -/
structure StepInput where
  keys : Keys
  random : Byte
  deriving DecidableEq, Repr

/-- The architectural state of the core: the nine items of R20, and nothing else. -/
structure CoreState where
  /-- `mem` (R30): the bytes that differ from the reset contents, addresses rising; see `Memory.wf`. -/
  mem : List Host.Cell
  /-- `V[0]`..`V[15]` (R21); `V[15]` is the flag `VF` (R22). -/
  V : Vector Byte 16
  /-- The index register (R23). -/
  I : Word
  /-- The program counter (R24). -/
  pc : Word
  /-- The return stack (R26). -/
  stack : Vector Word Config.stackDepth
  /-- The stack pointer, 0..16 (R27: a model may use a type that has only 0..16). -/
  sp : Fin (Config.stackDepth + 1)
  /-- The delay timer (R28). -/
  DT : Byte
  /-- The sound timer (R29). -/
  ST : Byte
  /-- The framebuffer (R31). -/
  fb : Framebuffer
  deriving DecidableEq, Repr

/-- The state of the machine behind the host's interface: the core's state, and what R20 and R36 say is not state of the core. The
interface gives a step one argument and one result, so the parameter, the inputs and the outputs of a step stand beside the
core's state (DESIGN CHOICE, safe; log entries 1, 3, 5 and 15): no request of the host sees more of them than R195 gives it. -/
structure State extends CoreState where
  /-- The model's own: the parameter FONT (R6, R33; log entry 3). No step writes it. -/
  font : Font
  /-- The model's own: the key levels sampled for the step being executed (R96; log entry 1). -/
  key : Keys
  /-- The model's own: the random byte sampled for the step being executed (R96; log entry 1). -/
  rnd : Byte
  /-- The model's own: the inputs the host has supplied for coming steps, oldest first (log entry 1). -/
  pending : List StepInput
  /-- The model's own: how many inputs have been taken; the index of the next free draw (log entry 1). -/
  draws : Nat
  /-- The model's own: the output `tone_on` of the step that ended here (R94, R178; log entry 5). No reading of the host shows it. -/
  toneOn : Bool
  /-- The model's own: the output `tone_stop` of the step that ended here (R94, R178; log entry 5). No reading of the host shows it. -/
  toneStop : Bool
  deriving DecidableEq, Repr

/-- The causes of R161 that a step can meet. Each ends the step with no change of state (R166) and is SAFE: where the spec
leaves a condition undefined it chooses the fault (D3, D4, D5, D7), so no claim can rest on a value the source does not give. -/
inductive Fault where
  /-- `FETCH_RANGE`, raised by phase 1 of any step when `pc >= 4095`; the lowest out-of-range address (R162). Safe. -/
  | fetchRange (addr : Nat)
  /-- `DATA_RANGE`, raised by LD.B, LD.mem, LD.regs and DRW when their range passes address 4095 (R163). Safe. -/
  | dataRange (addr : Nat)
  /-- `STACK_OVERFLOW`, raised by CALL when `sp = 16` (R164). Safe. -/
  | stackOverflow
  /-- `STACK_UNDERFLOW`, raised by RET when `sp = 0` (R165). Safe. -/
  | stackUnderflow
  /-- `KEY_INDEX`, raised by SKP and SKNP when `V[x] > 15`; the value of `V[x]` (R167). Safe. -/
  | keyIndex (value : Byte)
  deriving DecidableEq, Repr

/-- A refusal: the core never refuses an opcode (R13), so no meaning raises one. -/
inductive Refusal where
  /-- The form for an arm of `exec` that has no meaning; no arm uses it. Safe. -/
  | notModelled (mnemonic : String)
  deriving DecidableEq, Repr

/-- The outcome of executing an instruction or a step (R13). -/
abbrev Outcome := Host.Outcome State Fault Refusal

/-- The state after reset and after construction (R37, R190): memory as reset leaves it, so nothing listed; `pc = 0x200`;
everything else zero. The font is the default of R33 (PRESUMED, log entry 3); the inputs and outputs of a step are not
defined by reset and hold the values of log entry 2. -/
def State.reset : State where
  mem := []
  V := Vector.replicate 16 0
  I := 0
  pc := BitVec.ofNat 16 Config.progBase
  stack := Vector.replicate Config.stackDepth 0
  sp := 0
  DT := 0
  ST := 0
  fb := Vector.replicate Config.fbHeight (Vector.replicate Config.fbWidth false)
  font := defaultFont
  key := 0
  rnd := 0
  pending := []
  draws := 0
  toneOn := false
  toneStop := false

end Sys2Proof.Machine
end

