-- ==== Sys2Proof/Machine/Operands.lean ====
section
/-! DEFINITION. Operand forms: the general registers (10_state.md R21), the widened immediates (30_encoding.md R72), and the one
addressing mode, base `I` plus a constant (43_index_memory.md, 20_memory.md R56). -/

namespace Sys2Proof.Machine

/-- The index of the flag register `VF` (R22). -/
def flagReg : Reg := 0xF

/-- Read `V[x]` (R11). -/
def State.getV (s : State) (x : Reg) : Byte := s.V[x.toNat]'x.isLt

/-- `V[x] <- b` (R11); every register is writable, none is hardwired (R21). -/
def State.setV (s : State) (x : Reg) (b : Byte) : State := { s with V := s.V.set x.toNat b x.isLt }

/-- `zext_16` of an address field (R10, R72). -/
def zextAddr (nnn : Addr) : Word := nnn.setWidth 16

/-- `zext_16` of a byte (R10). -/
def zextByte (b : Byte) : Word := b.setWidth 16

/-- The address of byte `k` of a data access: a natural number, not reduced (R56). -/
def State.dataAddr (s : State) (k : Nat) : Nat := s.I.toNat + k

/-- The address of the glyph `FONT` places for digit `a`: `0x050 + 5*a`, no mask (R132). -/
def glyphAddr (a : Byte) : Word := BitVec.ofNat 16 Config.fontBase + 5 * zextByte a

/-- The three decimal digits of a byte, hundreds first (R133). -/
def decimalDigits (a : Byte) : List Byte := [a / 100, a / 10 % 10, a % 10]

/-- The column of a sprite's origin: `V[x] mod 64` (R143). -/
def originColumn (a : Byte) : Nat := a.toNat % Config.fbWidth

/-- The row of a sprite's origin: `V[y] mod 32` (R143). -/
def originRow (b : Byte) : Nat := b.toNat % Config.fbHeight

/-- Is key `k` pressed in this step's sample (R32)? -/
def State.keyDown (s : State) (k : Nat) : Bool := s.key.getLsbD k

/-- The lowest pressed key of this step's sample, if one is pressed (R152). -/
def State.lowestKey (s : State) : Option Byte := ((List.range 16).find? s.keyDown).map (BitVec.ofNat 8)

end Sys2Proof.Machine
end

