-- ==== Sys2Proof/Machine/Flags.lean ====
section
/-! DEFINITION. The values written to `VF` (10_state.md R22), and the two orders in which a result and a flag are written
(00_scope.md R12, 42_alu.md R123). -/

namespace Sys2Proof.Machine

/-- A flag as a byte: 1 or 0. -/
def flagByte (f : Bool) : Byte := if f then 1 else 0

/-- The carry of ADD: the 9-bit sum is greater than 255 (R117). -/
def carryOut (a b : Byte) : Bool := decide (a.toNat + b.toNat > 255)

/-- The flag of SUB and SUBN: the minuend is strictly greater; 0 on equality (R110, R118, R120). -/
def strictlyGreater (a b : Byte) : Bool := decide (a.toNat > b.toNat)

/-- The bit SHR shifts out (R119). -/
def lowBit (a : Byte) : Bool := a.getLsbD 0

/-- The bit SHL shifts out (R121). -/
def highBit (a : Byte) : Bool := a.getLsbD 7

/-- `VF <- f`. -/
def State.setFlag (s : State) (f : Bool) : State := s.setV flagReg (flagByte f)

/-- Result first, flag last: for `x = 15` the flag survives (R123). -/
def resultThenFlag (s : State) (x : Reg) (result : Byte) (f : Bool) : State := (s.setV x result).setFlag f

/-- Flag first, result last: for `x = 15` the result survives (R119, R121, R123). -/
def flagThenResult (s : State) (x : Reg) (result : Byte) (f : Bool) : State := (s.setFlag f).setV x result

end Sys2Proof.Machine
end

