-- ==== Sys2Proof/Machine/Ops.lean ====
section
/-! DEFINITION. The named operations: memory (20_memory.md), the return stack, the range check and raising a fault (60_exceptions.md:
the core has no trap entry and no trap return, R160, R172, R173), block moves, the framebuffer, and the phases of a step
(40_step_cycle.md). -/

namespace Sys2Proof.Machine

/-! ### Memory -/

/-- What an unlisted address reads as: the reset contents, FONT at 0x050..0x09F and 0 elsewhere (R37, R58). -/
def resetByte (font : Font) (a : Nat) : Byte :=
  if h : Config.fontBase ≤ a ∧ a < Config.fontBase + Config.fontLen then
    font[a - Config.fontBase]'(by simp only [Config.fontBase, Config.fontLen] at h ⊢; omega)
  else 0

/-- The listed byte at an address. -/
def cellLookup : List Host.Cell → Nat → Option Byte
  | [], _ => none
  | (b, v) :: rest, a => if b = a then some v else cellLookup rest a

/-- The list without an address. -/
def cellErase : List Host.Cell → Nat → List Host.Cell
  | [], _ => []
  | (b, v) :: rest, a => if b = a then cellErase rest a else (b, v) :: cellErase rest a

/-- The rising list with one address set. -/
def cellInsert : List Host.Cell → Nat → Byte → List Host.Cell
  | [], a, v => [(a, v)]
  | (b, w) :: rest, a, v =>
    if a < b then (a, v) :: (b, w) :: rest
    else if a = b then (a, v) :: rest
    else (b, w) :: cellInsert rest a v

/-- The canonical form: addresses strictly rising and inside memory, no entry equal to the reset contents. -/
abbrev Memory.wf (font : Font) (m : List Host.Cell) : Prop :=
  (m.map Prod.fst).Pairwise (· < ·) ∧ ∀ c ∈ m, c.1 < Config.memSize ∧ c.2 ≠ resetByte font c.1

/-- The byte at an address (R51). -/
def State.readByte (s : State) (a : Nat) : Byte := (cellLookup s.mem a).getD (resetByte s.font a)

/-- `mem[a] <- v` (R51). Callers have checked the range (R55); writing the reset contents removes the entry. -/
def State.writeByte (s : State) (a : Nat) (v : Byte) : State :=
  { s with mem := if v = resetByte s.font a then cellErase s.mem a else cellInsert s.mem a v }

/-- Write bytes from an address upward (R63: ascending order). -/
def storeBytes : Nat → List Byte → State → State
  | _, [], s => s
  | a, b :: rest, s => storeBytes (a + 1) rest (s.writeByte a b)

/-- The bytes `V[0]`..`V[n-1]` (R134). -/
def State.regBytes (s : State) (n : Nat) : List Byte := (List.range n).map fun k => s.getV (BitVec.ofNat 4 k)

/-- Load `V[0]`..`V[n-1]` from `I` upward, ascending (R135). -/
def loadRegs : Nat → State → State
  | 0, s => s
  | n + 1, s =>
    let t := loadRegs n s
    t.setV (BitVec.ofNat 4 n) (t.readByte (t.dataAddr n))

/-! ### Faults -/

/-- `raise F` (R11): the step ends as a fault. It saves nothing, changes no state and transfers control nowhere (R166, R172). -/
def raise (f : Fault) : Outcome := .fault f

/-- The range check of a data access of `len` bytes at `I`, made before the first byte moves (R55). -/
def State.rangeFault (s : State) (len : Nat) : Option Fault :=
  if 1 ≤ len ∧ Config.memSize ≤ s.I.toNat + len - 1 then some (.dataRange (max s.I.toNat Config.memSize)) else none

/-- An instruction that accesses `len` bytes at `I` and goes to `t` if the range is good. -/
def accessing (s : State) (len : Nat) (t : State) : Outcome :=
  match s.rangeFault len with
  | some f => raise f
  | none => .next t

/-! ### Control transfer -/

/-- `pc <- t`; a target is never checked when it is written (R100). -/
def State.jumpTo (s : State) (target : Word) : State := { s with pc := target }

/-- A skip: 2 more on the advanced `pc` if the condition holds (R100). -/
def State.skipIf (s : State) (c : Bool) : State := if c then s.jumpTo (s.pc + 2) else s

/-- Push the advanced `pc` on the return stack and jump (R103). -/
def pushAndJump (s : State) (target : Word) : Outcome :=
  if h : s.sp.val < Config.stackDepth then
    .next { s with stack := s.stack.set s.sp.val s.pc h, sp := ⟨s.sp.val + 1, Nat.succ_lt_succ h⟩, pc := target }
  else raise .stackOverflow

/-- Pop the return stack into `pc`; the popped entry keeps its value (R26, R101). -/
def popReturn (s : State) : Outcome :=
  if h : s.sp.val = 0 then raise .stackUnderflow
  else
    have lt : s.sp.val - 1 < Config.stackDepth := by have := s.sp.isLt; simp only [Config.stackDepth] at this ⊢; omega
    .next { s with sp := ⟨s.sp.val - 1, Nat.lt_succ_of_lt lt⟩, pc := s.stack[s.sp.val - 1] }

/-! ### Framebuffer -/

/-- A framebuffer from the value of each pixel. -/
def fbOf (f : Nat → Nat → Bool) : Framebuffer := Vector.ofFn fun r => Vector.ofFn fun c => f r c

/-- The pixel at row `r`, column `c`; nothing outside the framebuffer is lit. -/
def State.pixel (s : State) (r c : Nat) : Bool :=
  if h : r < Config.fbHeight ∧ c < Config.fbWidth then (s.fb[r]'h.1)[c]'h.2 else false

/-- The bit of the sprite at `I` in its row `k`, column `j`: byte `k`, bit 7 leftmost (R142). -/
def State.spriteBit (s : State) (k j : Nat) : Bool := (s.readByte (s.dataAddr k)).getLsbD (7 - j)

/-- Does the `n`-row sprite drawn at column `X`, row `Y` set the pixel at row `r`, column `c`? (R142, R143: the pixels past the edges
are pixels of no framebuffer position, so they are clipped.) -/
def State.spriteAt (s : State) (X Y n r c : Nat) : Bool :=
  decide (Y ≤ r ∧ r < Y + n ∧ X ≤ c ∧ c < X + 8) && s.spriteBit (r - Y) (c - X)

/-- Does the sprite turn off a lit pixel? (R141) -/
def State.collides (s : State) (X Y n : Nat) : Bool :=
  (List.range n).any fun k => (List.range 8).any fun j => s.pixel (Y + k) (X + j) && s.spriteBit k j

/-- XOR the sprite onto the framebuffer and report the collision in `VF` (R141). -/
def State.drawSprite (s : State) (X Y n : Nat) : State :=
  { s.setFlag (s.collides X Y n) with fb := fbOf fun r c => s.pixel r c ^^ s.spriteAt X Y n r c }

/-! ### The phases of a step (40_step_cycle.md R90) -/

/-- Phase 1: the big-endian word at `pc`, or `FETCH_RANGE` (R54, R91). -/
def fetch (s : State) : Except Fault Word :=
  if Config.memSize ≤ s.pc.toNat + 1 then .error (.fetchRange (max s.pc.toNat Config.memSize))
  else .ok (wordOfBytes (s.readByte s.pc.toNat) (s.readByte (s.pc.toNat + 1)))

/-- Phase 2: `pc <- (pc + 2) mod 65536` (R92). -/
def State.advance (s : State) : State := { s with pc := s.pc + 2 }

/-- The inputs of the coming step: the oldest the host supplied, else a free draw (R96; log entry 1). -/
def State.nextInput (s : State) : StepInput :=
  match s.pending with
  | inp :: _ => inp
  | [] => ⟨Config.freeKeys s.draws, Config.freeRandom s.draws⟩

/-- Sample the inputs, once for the whole step, before phase 3 (R96). -/
def State.sample (s : State) : State :=
  { s with key := s.nextInput.keys, rnd := s.nextInput.random, pending := s.pending.tail, draws := s.draws + 1 }

/-- One tick of a timer: at 0 it stays 0 (R28, R29). -/
def tickTimer (t : Byte) : Byte := if t = 0 then 0 else t - 1

/-- Phase 4: tick both timers and compute the tone outputs from the sound timer (R94). -/
def State.tick (s : State) : State :=
  { s with DT := tickTimer s.DT, ST := tickTimer s.ST, toneOn := decide (s.ST ≠ 0), toneStop := decide (s.ST = 1) }

/-- Phase 4 follows a phase 3 that raised no fault; a fault voids the step (R93, R166). -/
def finishStep : Outcome → Outcome
  | .next t => .next t.tick
  | .fault f => .fault f
  | .refused r => .refused r

/-- Place a word where the next step fetches: at `pc`, or, where no instruction can be fetched at `pc`, at the entry point with
`pc` moved there (log entry 8). -/
def placeWord (s : State) (op : Word) : State :=
  let p : Word := if s.pc.toNat + 1 < Config.memSize then s.pc else BitVec.ofNat 16 Config.progBase
  storeBytes p.toNat (bytesOfWord op) { s with pc := p }

end Sys2Proof.Machine
end

