-- ==== Sys2Proof/Machine/Alu.lean ====
section
/-! DEFINITION. Register load, arithmetic, logic, shifts, random (42_alu.md). Operands are read from the state before any write (R12). -/

namespace Sys2Proof.Machine

/-- `6xkk` LD (R111). -/
def execLdI (x : Reg) (kk : Byte) (s : State) : Outcome := .next (s.setV x kk)

/-- `7xkk` ADD, no flag (R112). -/
def execAddI (x : Reg) (kk : Byte) (s : State) : Outcome := .next (s.setV x (s.getV x + kk))

/-- `8xy0` LD (R113). -/
def execLdR (x y : Reg) (s : State) : Outcome := .next (s.setV x (s.getV y))

/-- `8xy1` OR, flag cleared (R114). -/
def execOrR (x y : Reg) (s : State) : Outcome := .next (resultThenFlag s x (s.getV x ||| s.getV y) false)

/-- `8xy2` AND, flag cleared (R115). -/
def execAndR (x y : Reg) (s : State) : Outcome := .next (resultThenFlag s x (s.getV x &&& s.getV y) false)

/-- `8xy3` XOR, flag cleared (R116). -/
def execXorR (x y : Reg) (s : State) : Outcome := .next (resultThenFlag s x (s.getV x ^^^ s.getV y) false)

/-- `8xy4` ADD with carry out (R117). -/
def execAddR (x y : Reg) (s : State) : Outcome :=
  .next (resultThenFlag s x (s.getV x + s.getV y) (carryOut (s.getV x) (s.getV y)))

/-- `8xy5` SUB (R118). -/
def execSub (x y : Reg) (s : State) : Outcome :=
  .next (resultThenFlag s x (s.getV x - s.getV y) (strictlyGreater (s.getV x) (s.getV y)))

/-- `8xy6` SHR; `y` is not used (R119). -/
def execShr (x _y : Reg) (s : State) : Outcome := .next (flagThenResult s x (s.getV x >>> 1) (lowBit (s.getV x)))

/-- `8xy7` SUBN (R120). -/
def execSubn (x y : Reg) (s : State) : Outcome :=
  .next (resultThenFlag s x (s.getV y - s.getV x) (strictlyGreater (s.getV y) (s.getV x)))

/-- `8xyE` SHL; `y` is not used (R121). -/
def execShl (x _y : Reg) (s : State) : Outcome := .next (flagThenResult s x (s.getV x <<< 1) (highBit (s.getV x)))

/-- `Cxkk` RND: the step's random input masked by the immediate (R122). -/
def execRnd (x : Reg) (kk : Byte) (s : State) : Outcome := .next (s.setV x (s.rnd &&& kk))

end Sys2Proof.Machine
end

