-- ==== Sys2Proof/Machine/Display.lean ====
section
/-! DEFINITION. The framebuffer (44_display.md). -/

namespace Sys2Proof.Machine

/-- `00E0` CLS (R140). -/
def execCls (s : State) : Outcome := .next { s with fb := fbOf fun _ _ => false }

/-- `Dxyn` DRW (R141): the coordinates are latched before `VF` is written; all `n` bytes are range-checked (R55). -/
def execDrw (x y : Reg) (n : Nibble) (s : State) : Outcome :=
  accessing s n.toNat (s.drawSprite (originColumn (s.getV x)) (originRow (s.getV y)) n.toNat)

end Sys2Proof.Machine
end

