-- ==== Sys2Proof/Machine/Flow.lean ====
section
/-! DEFINITION. Control transfer (41_flow.md). `pc` already holds the address of the instruction plus 2 (R92). -/

namespace Sys2Proof.Machine

/-- `00EE` RET (R101). -/
def execRet (s : State) : Outcome := popReturn s

/-- `1nnn` JP (R102). -/
def execJp (nnn : Addr) (s : State) : Outcome := .next (s.jumpTo (zextAddr nnn))

/-- `2nnn` CALL (R103). -/
def execCall (nnn : Addr) (s : State) : Outcome := pushAndJump s (zextAddr nnn)

/-- `3xkk` SE (R104). -/
def execSeI (x : Reg) (kk : Byte) (s : State) : Outcome := .next (s.skipIf (s.getV x == kk))

/-- `4xkk` SNE (R105). -/
def execSneI (x : Reg) (kk : Byte) (s : State) : Outcome := .next (s.skipIf (s.getV x != kk))

/-- `5xy0` SE (R106). -/
def execSeR (x y : Reg) (s : State) : Outcome := .next (s.skipIf (s.getV x == s.getV y))

/-- `9xy0` SNE (R107). -/
def execSneR (x y : Reg) (s : State) : Outcome := .next (s.skipIf (s.getV x != s.getV y))

/-- `Bnnn` JP V0 (R108). -/
def execJpV0 (nnn : Addr) (s : State) : Outcome := .next (s.jumpTo (zextAddr nnn + zextByte (s.getV 0x0)))

end Sys2Proof.Machine
end

