-- ==== Sys2Proof/Machine/IndexMemory.lean ====
section
/-! DEFINITION. The index register and memory (43_index_memory.md). No load or store changes `I`. -/

namespace Sys2Proof.Machine

/-- `Annn` LD I (R130). -/
def execLdIndex (nnn : Addr) (s : State) : Outcome := .next { s with I := zextAddr nnn }

/-- `Fx1E` ADD I, 16-bit modular, no flag (R131). -/
def execAddIndex (x : Reg) (s : State) : Outcome := .next { s with I := s.I + zextByte (s.getV x) }

/-- `Fx29` LD F (R132). -/
def execLdFont (x : Reg) (s : State) : Outcome := .next { s with I := glyphAddr (s.getV x) }

/-- `Fx33` LD B: hundreds, tens, units at `I`, `I+1`, `I+2` (R133). -/
def execLdBcd (x : Reg) (s : State) : Outcome :=
  accessing s 3 (storeBytes (s.dataAddr 0) (decimalDigits (s.getV x)) s)

/-- `Fx55` LD [I]: store `V[0]`..`V[x]` (R134). -/
def execLdMem (x : Reg) (s : State) : Outcome :=
  accessing s (x.toNat + 1) (storeBytes (s.dataAddr 0) (s.regBytes (x.toNat + 1)) s)

/-- `Fx65` LD Vx,[I]: load `V[0]`..`V[x]` (R135). -/
def execLdRegs (x : Reg) (s : State) : Outcome := accessing s (x.toNat + 1) (loadRegs (x.toNat + 1) s)

end Sys2Proof.Machine
end

