-- ==== Sys2Proof/Machine/KeypadTimers.lean ====
section
/-! DEFINITION. Keypad skips, key wait, timer access (45_keypad_timers.md). -/

namespace Sys2Proof.Machine

/-- A skip on the level `pressed` of the key that `V[x]` names; `KEY_INDEX` for an index above 15 (R167). -/
def skipOnKey (x : Reg) (pressed : Bool) (s : State) : Outcome :=
  if (s.getV x).toNat > 15 then raise (.keyIndex (s.getV x))
  else .next (s.skipIf (s.keyDown (s.getV x).toNat == pressed))

/-- `Ex9E` SKP (R150). -/
def execSkp (x : Reg) (s : State) : Outcome := skipOnKey x true s

/-- `ExA1` SKNP (R151). -/
def execSknp (x : Reg) (s : State) : Outcome := skipOnKey x false s

/-- `Fx07` LD Vx,DT (R153). -/
def execLdFromDT (x : Reg) (s : State) : Outcome := .next (s.setV x s.DT)

/-- `Fx15` LD DT,Vx (R154). -/
def execLdDT (x : Reg) (s : State) : Outcome := .next { s with DT := s.getV x }

/-- `Fx18` LD ST,Vx (R155). -/
def execLdST (x : Reg) (s : State) : Outcome := .next { s with ST := s.getV x }

/-- `Fx0A` LD Vx,K: the lowest pressed key, or back to this instruction's own address (R152). -/
def execLdKey (x : Reg) (s : State) : Outcome :=
  .next (match s.lowestKey with
    | some k => s.setV x k
    | none => s.jumpTo (s.pc - 2))

end Sys2Proof.Machine
end

