-- ==== Sys2Proof/Machine/NoOp.lean ====
section
/-! DEFINITION. The unassigned codes: nothing happens in phase 3, and none is an error (40_step_cycle.md R95, 30_encoding.md R78). -/

namespace Sys2Proof.Machine

/-- An unassigned code of family 0x0 (R95). -/
def execNop0 (_code : BitVec 12) (s : State) : Outcome := .next s

/-- An unassigned code of family 0x8 (R95). -/
def execNop8 (_code : BitVec 12) (s : State) : Outcome := .next s

/-- An unassigned code of family 0xE (R95). -/
def execNopE (_code : BitVec 12) (s : State) : Outcome := .next s

/-- An unassigned code of family 0xF (R95). -/
def execNopF (_code : BitVec 12) (s : State) : Outcome := .next s

end Sys2Proof.Machine
end

