-- ==== Sys2Proof/Machine/Dispatch.lean ====
section
/-! DEFINITION. Phase 3: one arm per row of the opcode table (40_step_cycle.md R93). -/

namespace Sys2Proof.Machine

def exec (i : Instr) (s : State) : Host.Outcome State Fault Refusal :=
  match i with
  | .cls => Sys2Proof.Machine.execCls s
  | .ret => Sys2Proof.Machine.execRet s
  | .jp nnn => Sys2Proof.Machine.execJp nnn s
  | .call nnn => Sys2Proof.Machine.execCall nnn s
  | .seI x kk => Sys2Proof.Machine.execSeI x kk s
  | .sneI x kk => Sys2Proof.Machine.execSneI x kk s
  | .seR x y => Sys2Proof.Machine.execSeR x y s
  | .sneR x y => Sys2Proof.Machine.execSneR x y s
  | .ldI x kk => Sys2Proof.Machine.execLdI x kk s
  | .addI x kk => Sys2Proof.Machine.execAddI x kk s
  | .ldR x y => Sys2Proof.Machine.execLdR x y s
  | .orR x y => Sys2Proof.Machine.execOrR x y s
  | .andR x y => Sys2Proof.Machine.execAndR x y s
  | .xorR x y => Sys2Proof.Machine.execXorR x y s
  | .addR x y => Sys2Proof.Machine.execAddR x y s
  | .sub x y => Sys2Proof.Machine.execSub x y s
  | .shr x y => Sys2Proof.Machine.execShr x y s
  | .subn x y => Sys2Proof.Machine.execSubn x y s
  | .shl x y => Sys2Proof.Machine.execShl x y s
  | .ldIndex nnn => Sys2Proof.Machine.execLdIndex nnn s
  | .jpV0 nnn => Sys2Proof.Machine.execJpV0 nnn s
  | .rnd x kk => Sys2Proof.Machine.execRnd x kk s
  | .drw x y n => Sys2Proof.Machine.execDrw x y n s
  | .skp x => Sys2Proof.Machine.execSkp x s
  | .sknp x => Sys2Proof.Machine.execSknp x s
  | .ldFromDT x => Sys2Proof.Machine.execLdFromDT x s
  | .ldDT x => Sys2Proof.Machine.execLdDT x s
  | .ldST x => Sys2Proof.Machine.execLdST x s
  | .ldKey x => Sys2Proof.Machine.execLdKey x s
  | .addIndex x => Sys2Proof.Machine.execAddIndex x s
  | .ldFont x => Sys2Proof.Machine.execLdFont x s
  | .ldBcd x => Sys2Proof.Machine.execLdBcd x s
  | .ldMem x => Sys2Proof.Machine.execLdMem x s
  | .ldRegs x => Sys2Proof.Machine.execLdRegs x s
  | .nop0 code => Sys2Proof.Machine.execNop0 code s
  | .nop8 code => Sys2Proof.Machine.execNop8 code s
  | .nopE code => Sys2Proof.Machine.execNopE code s
  | .nopF code => Sys2Proof.Machine.execNopF code s

end Sys2Proof.Machine
end

