-- ==== Sys2Proof/Machine/Step.lean ====
section
/-! DEFINITION. One step: fetch, advance, execute, timers (40_step_cycle.md R90); and the host's way to place an instruction. -/

namespace Sys2Proof.Machine

/-- One step (R90, R97). The inputs are sampled once before phase 3 (R96). A fault in any phase voids the step (R166). -/
def step (s : State) : Host.Outcome State Fault Refusal :=
  match fetch s with
  | .error f => raise f
  | .ok op => finishStep (exec (decodeWord op) s.sample.advance)

/-- The state with an instruction placed where the next step fetches (log entry 8). An instruction is one word, numbered as the
opcode table numbers it; bits at or above `nbits` are 0. -/
def State.withFetchWord (s : State) (nbits w : Nat) : State := placeWord s (BitVec.ofNat 16 (w % 2 ^ nbits))

end Sys2Proof.Machine
end

