-- ==== Sys2Proof/Machine/HostOps.lean ====
section
/-! DEFINITION. The host interface (70_reset_and_hazards.md R195): the three operations, what the host supplies and what it reads. -/

namespace Sys2Proof.Machine

/-! ### Fault codes (60_exceptions.md R161) -/

/-- The numeric code of a cause (R161). -/
def Fault.code : Fault → Nat
  | .fetchRange _ => 1
  | .dataRange _ => 2
  | .stackOverflow => 3
  | .stackUnderflow => 4
  | .keyIndex _ => 5

/-- The `info` value of a cause (R161, R169). -/
def Fault.info : Fault → Nat
  | .fetchRange a => a
  | .dataRange a => a
  | .stackOverflow => 0
  | .stackUnderflow => 0
  | .keyIndex v => v.toNat

/-- The failure of `loadProgram` (R168): cause `LOAD_TOO_LARGE`, code 6; never the result of a step. -/
inductive LoadError where
  /-- More bytes than fit above 0x200; the byte count (R161). Raised by `loadProgram` only. Safe. -/
  | tooLarge (count : Nat)
  deriving DecidableEq, Repr

/-- The code of the load failure (R161). -/
def LoadError.code : LoadError → Nat
  | .tooLarge _ => 6

/-- The `info` of the load failure: the byte count (R161). -/
def LoadError.info : LoadError → Nat
  | .tooLarge n => n

/-! ### The operations -/

/-- `reset` (R190): the state of R37 for the machine's own FONT. The inputs already supplied and the count of draws are the
environment's and go on: no relation is promised between the random bytes before and after a reset (R191; log entry 7). -/
def hostReset (s : State) : State := { State.reset with font := s.font, pending := s.pending, draws := s.draws }

/-- `loadProgram(bytes)` (R196): copy to 0x200 upward, or reject and change nothing. -/
def loadProgram (bytes : List Byte) (s : State) : Except LoadError State :=
  if bytes.length > Config.progMax then .error (.tooLarge bytes.length)
  else .ok (storeBytes Config.progBase bytes s)

/-- The host supplies the inputs of a coming step (R32: written before each step or batch of steps). -/
def supplyInput (inp : StepInput) (s : State) : State := { s with pending := s.pending ++ [inp] }

/-- `step(key, rnd)` (R195): a step with these inputs. -/
def stepWith (inp : StepInput) (s : State) : Host.Outcome State Fault Refusal :=
  step { s with pending := inp :: s.pending }

/-- The result `Ok(state', tone_on, tone_stop)` of a step (R97). -/
structure StepOk where
  core : CoreState
  toneOn : Bool
  toneStop : Bool
  deriving DecidableEq, Repr

/-- An outcome as the result R97 gives a step: the core's state and the two tone outputs. -/
def stepResult : Outcome → Host.Outcome StepOk Fault Refusal
  | .next t => .next ⟨t.toCoreState, t.toneOn, t.toneStop⟩
  | .fault f => .fault f
  | .refused r => .refused r

/-- `step` as R97 gives it: a function of the core's state (R20) and the step's inputs, for the parameter FONT (R6). -/
def coreStep (font : Font) (inp : StepInput) (c : CoreState) : Host.Outcome StepOk Fault Refusal :=
  stepResult (stepWith inp { State.reset with toCoreState := c, font := font })

/-- What the host may read between operations (R38, R195): the framebuffer and the timers. The tone outputs are in the answer to
the step that gave them, and nothing keeps them for a later reading (R36). -/
structure HostView where
  fb : Framebuffer
  DT : Byte
  ST : Byte
  deriving DecidableEq, Repr

/-- The host's reading of a state. -/
def hostView (s : State) : HostView := ⟨s.fb, s.DT, s.ST⟩

/-! ### The core as the host sees it: one request at a time -/

/-- The requests of R195. -/
inductive Request where
  | reset
  | loadProgram (bytes : List Byte)
  | step (inp : StepInput)
  deriving DecidableEq, Repr

/-- The results of R195. -/
inductive Response where
  | done
  | loadOk
  | loadError (code info : Nat)
  | stepOk (toneOn toneStop : Bool)
  | stepFault (code info : Nat)
  /-- Never given: the core refuses no opcode (R13). -/
  | stepRefused
  deriving DecidableEq, Repr

/-- Serve one request: the state after it and the result. After a fault or a load error the state is the state before (R166, R196). -/
def serve (req : Request) (s : State) : State × Response :=
  match req with
  | .reset => (hostReset s, .done)
  | .loadProgram bytes =>
    match loadProgram bytes s with
    | .ok t => (t, .loadOk)
    | .error e => (s, .loadError e.code e.info)
  | .step inp =>
    match stepWith inp s with
    | .next t => (t, .stepOk t.toneOn t.toneStop)
    | .fault f => (s, .stepFault f.code f.info)
    | .refused _ => (s, .stepRefused)

/-- Serve a sequence of requests: the state after all of them (R197: the host requests anything in any number). -/
def serveAll : List Request → State → State
  | [], s => s
  | req :: rest, s => serveAll rest (serve req s).1

end Sys2Proof.Machine
end

