-- ==== Sys2Proof/Safety.lean ====
section
/-! DEFINITION. What claims are stated in: the invariants of the machine, the frames ("unchanged but for ..."), the final state. -/

namespace Sys2Proof.Machine

/-! ### Invariants -/

/-- The memory of a state has its canonical form. -/
abbrev State.memWf (s : State) : Prop := Memory.wf s.font s.mem

/-- The bound of 10_state.md R39: no `pc` above 0x10FE is ever held. Return addresses are what `pc` was after a fetch below 4095,
so a stacked address is at most 4096. -/
def State.pcBounded (s : State) : Prop := s.pc.toNat ≤ 0x10FE ∧ ∀ k (h : k < Config.stackDepth), (s.stack[k]'h).toNat ≤ Config.memSize

/-- Both invariants. -/
def State.Inv (s : State) : Prop := s.memWf ∧ s.pcBounded

/-! ### Frames -/

/-- Every register outside the list is unchanged. -/
def sameRegsBut (written : List Reg) (s t : State) : Prop := ∀ r, r ∉ written → t.getV r = s.getV r

/-- Every byte of memory outside the `len` bytes from `a` is unchanged. -/
def sameMemOutside (a len : Nat) (s t : State) : Prop := ∀ b, b < a ∨ a + len ≤ b → t.readByte b = s.readByte b

/-- Every byte of memory is unchanged. -/
def sameMem (s t : State) : Prop := ∀ b, t.readByte b = s.readByte b

/-- The return stack and its pointer are unchanged. -/
def sameStack (s t : State) : Prop := t.stack = s.stack ∧ t.sp = s.sp

/-- Both timers are unchanged. -/
def sameTimers (s t : State) : Prop := t.DT = s.DT ∧ t.ST = s.ST

/-- The parameter, the inputs and the outputs of the step are unchanged: phase 3 writes none of them. -/
def sameBoundary (s t : State) : Prop :=
  t.font = s.font ∧ t.key = s.key ∧ t.rnd = s.rnd ∧ t.pending = s.pending ∧ t.draws = s.draws ∧
  t.toneOn = s.toneOn ∧ t.toneStop = s.toneStop

/-- Nothing changed but, possibly, the listed registers. -/
def onlyRegs (written : List Reg) (s t : State) : Prop :=
  sameRegsBut written s t ∧ t.I = s.I ∧ t.pc = s.pc ∧ sameStack s t ∧ sameTimers s t ∧ t.fb = s.fb ∧ sameMem s t ∧ sameBoundary s t

/-- Nothing changed but, possibly, `pc`. -/
def onlyPc (s t : State) : Prop :=
  sameRegsBut [] s t ∧ t.I = s.I ∧ sameStack s t ∧ sameTimers s t ∧ t.fb = s.fb ∧ sameMem s t ∧ sameBoundary s t

/-- Nothing changed but, possibly, `pc`, the return stack and its pointer. -/
def onlyPcAndStack (s t : State) : Prop :=
  sameRegsBut [] s t ∧ t.I = s.I ∧ sameTimers s t ∧ t.fb = s.fb ∧ sameMem s t ∧ sameBoundary s t

/-- Nothing changed but, possibly, the timers. -/
def onlyTimers (s t : State) : Prop :=
  sameRegsBut [] s t ∧ t.I = s.I ∧ t.pc = s.pc ∧ sameStack s t ∧ t.fb = s.fb ∧ sameMem s t ∧ sameBoundary s t

/-- Nothing changed but, possibly, `I`. -/
def onlyIndex (s t : State) : Prop :=
  sameRegsBut [] s t ∧ t.pc = s.pc ∧ sameStack s t ∧ sameTimers s t ∧ t.fb = s.fb ∧ sameMem s t ∧ sameBoundary s t

/-- Nothing changed but, possibly, the `len` bytes of memory from `a`. -/
def onlyMem (a len : Nat) (s t : State) : Prop :=
  sameRegsBut [] s t ∧ t.I = s.I ∧ t.pc = s.pc ∧ sameStack s t ∧ sameTimers s t ∧ t.fb = s.fb ∧ sameMemOutside a len s t ∧
  sameBoundary s t

/-- Nothing changed but, possibly, the framebuffer and the listed registers. -/
def onlyFb (written : List Reg) (s t : State) : Prop :=
  sameRegsBut written s t ∧ t.I = s.I ∧ t.pc = s.pc ∧ sameStack s t ∧ sameTimers s t ∧ sameMem s t ∧ sameBoundary s t

/-! ### What each instruction may touch, as the spec's tables list it -/

/-- The words of one row decode to the instruction that its fields give (R76). -/
def picks (mask bits : Word) (f : Word → Instr) : Prop := ∀ op : Word, op &&& mask = bits → decodeWord op = f op

/-- The registers `V[0]`..`V[x]`. -/
def regsUpTo (x : Reg) : List Reg := (List.range (x.toNat + 1)).map (BitVec.ofNat 4)

/-- The registers an instruction may write: its destination, and `VF` for the nine instructions that R22's table lists. DEDUCED (log
entry 14): R22 and R199 count twelve; the table, whose rows the instructions' own rules bear out, lists nine. -/
def writtenRegs : Instr → List Reg
  | .ldI x _ | .addI x _ | .ldR x _ | .rnd x _ | .ldFromDT x | .ldKey x => [x]
  | .orR x _ | .andR x _ | .xorR x _ | .addR x _ | .sub x _ | .shr x _ | .subn x _ | .shl x _ => [x, flagReg]
  | .drw _ _ _ => [flagReg]
  | .ldRegs x => regsUpTo x
  | .cls | .ret | .jp _ | .call _ | .seI _ _ | .sneI _ _ | .seR _ _ | .sneR _ _ | .ldIndex _ | .jpV0 _ | .skp _ | .sknp _
  | .ldDT _ | .ldST _ | .addIndex _ | .ldFont _ | .ldBcd _ | .ldMem _ | .nop0 _ | .nop8 _ | .nopE _ | .nopF _ => []

/-- The instructions that write `I` (R23, R40). -/
def writesIndex : Instr → Bool
  | .ldIndex _ | .addIndex _ | .ldFont _ => true
  | _ => false

/-- The instructions that write `pc` in phase 3 (R25, R40). -/
def writesPc : Instr → Bool
  | .jp _ | .call _ | .ret | .jpV0 _ | .seI _ _ | .sneI _ _ | .seR _ _ | .sneR _ _ | .skp _ | .sknp _ | .ldKey _ => true
  | _ => false

/-- How many bytes at `I` an instruction stores (R50: only Fx33 and Fx55 write `mem`). -/
def storeLen : Instr → Nat
  | .ldBcd _ => 3
  | .ldMem x => x.toNat + 1
  | _ => 0

/-- How many bytes at `I` an instruction accesses (R55). -/
def accessLen : Instr → Nat
  | .ldBcd _ => 3
  | .ldMem x | .ldRegs x => x.toNat + 1
  | .drw _ _ n => n.toNat
  | _ => 0

/-- The instructions that read the keypad (R96). -/
def readsKeys : Instr → Bool
  | .skp _ | .sknp _ | .ldKey _ => true
  | _ => false

/-- The instruction that reads the random input (R96). -/
def readsRandom : Instr → Bool
  | .rnd _ _ => true
  | _ => false

/-- The rows of unassigned codes. -/
def isNoOp : Instr → Bool
  | .nop0 _ | .nop8 _ | .nopE _ | .nopF _ => true
  | _ => false

/-- The unassigned codes, as the table of R78 lists them. -/
def unassigned (op : Word) : Prop :=
  (famOf op = 0x0 ∧ nOf op ∈ [0x1, 0x2, 0x3, 0x4, 0x5, 0x6, 0x7, 0x8, 0x9, 0xA, 0xB, 0xC, 0xD, 0xF]) ∨
  (famOf op = 0x8 ∧ nOf op ∈ [0x8, 0x9, 0xA, 0xB, 0xC, 0xD, 0xF]) ∨
  (famOf op = 0xE ∧ nOf op ∈ [0x0, 0x2, 0x3, 0x4, 0x5, 0x6, 0x7, 0x8, 0x9, 0xA, 0xB, 0xC, 0xD, 0xF]) ∨
  (famOf op = 0xF ∧ kkOf op ∉ [0x07, 0x0A, 0x15, 0x18, 0x1E, 0x29, 0x33, 0x55, 0x65])

/-- The bits of a word that are part of the decode or a field of the instruction (R71: the others are ignored). -/
def usedBits : Instr → Word
  | .cls | .ret => 0xF00F
  | .seR _ _ | .sneR _ _ => 0xFFF0
  | .skp _ | .sknp _ => 0xFF0F
  | _ => 0xFFFF

/-- The one fault an instruction can raise, and its condition (R161, R171). -/
def faultOf (i : Instr) (s : State) : Option Fault :=
  match i with
  | .ret => if s.sp.val = 0 then some .stackUnderflow else none
  | .call _ => if s.sp.val = 16 then some .stackOverflow else none
  | .skp x | .sknp x => if 15 < (s.getV x).toNat then some (.keyIndex (s.getV x)) else none
  | i => if accessLen i ≠ 0 ∧ 4096 < s.I.toNat + accessLen i then some (.dataRange (max s.I.toNat 4096)) else none

/-- Where `pc` stands after phase 3 (R25), from the state phase 2 left. -/
def pcAfter (i : Instr) (u : State) : Word :=
  match i with
  | .jp nnn | .call nnn => BitVec.ofNat 16 nnn.toNat
  | .jpV0 nnn => BitVec.ofNat 16 (nnn.toNat + (u.getV 0).toNat)
  | .ret => (u.stack[u.sp.val - 1]?).getD 0
  | .seI x kk => if u.getV x = kk then u.pc + 2 else u.pc
  | .sneI x kk => if u.getV x = kk then u.pc else u.pc + 2
  | .seR x y => if u.getV x = u.getV y then u.pc + 2 else u.pc
  | .sneR x y => if u.getV x = u.getV y then u.pc else u.pc + 2
  | .skp x => if u.key.getLsbD (u.getV x).toNat then u.pc + 2 else u.pc
  | .sknp x => if u.key.getLsbD (u.getV x).toNat then u.pc else u.pc + 2
  | .ldKey _ => if u.key = 0 then u.pc - 2 else u.pc
  | _ => u.pc

/-- An outcome with a function applied to its next state. -/
def mapNext (f : State → State) : Outcome → Outcome
  | .next t => .next (f t)
  | .fault e => .fault e
  | .refused r => .refused r

/-! ### Safe steps and final states -/

/-- A step that ends in a next state. -/
def stepsOk (s : State) : Prop := ∃ t, step s = .next t

/-- The conventional final state (R198, D26): `pc` addresses a jump to itself and both timers have run out. -/
def State.final (s : State) : Prop :=
  (∃ nnn, zextAddr nnn = s.pc ∧ fetch s = .ok (encodeWord (.jp nnn))) ∧ s.DT = 0 ∧ s.ST = 0

end Sys2Proof.Machine
end

