-- ==== Sys2Proof/Certificates/Slice0/Obligations.lean ====
section
/-! DEFINITION. The statements for the provers, from the spec's numbered rules; each docstring names the rule it formalises. -/

open Sys2Proof Sys2Proof.Machine

/-! ### Encoding (30_encoding.md) -/

/-- Decoding an encoded well-formed instruction gives it back, whatever bytes follow, with every operand at every value (R70, R76). -/
def Obligations.DecodeOfEncode : Prop :=
  ∀ (i : Instr) (rest : List Byte), i.wf = true → decode (encode i ++ rest) = .ok (i, rest)

/-- R82, which the spec marks as derived from R76, R77, R78: a word is the first row of the table it matches, every word matches one,
and no word matches two of the 34 rows of R76. -/
def Obligations.DecodeFollowsTable : Prop :=
  (∀ op, (decodeWord op).wf = true ∧ opcodeRows.find? (fun r => r.matches op) = some (rowOf (decodeWord op))) ∧
  (∀ op, ∀ r ∈ instructionRows, ∀ q ∈ instructionRows, r.matches op = true → q.matches op = true → r = q)

/-- R73, R74, R75: level 1 alone selects in twelve families; level 2 is the low nibble in 0x0, 0x8, 0xE and the low byte in 0xF; an
unassigned secondary code is a no-op and faults in no state. Which nibble level 2 reads is the spec's decision D1 (log entry 4). -/
def Obligations.TwoLevelDecode : Prop :=
  (∀ op op' : Word, famOf op = famOf op' → famOf op ∉ [0x0, 0x8, 0xE, 0xF] → rowOf (decodeWord op) = rowOf (decodeWord op')) ∧
  (∀ op op' : Word, famOf op = famOf op' → famOf op ∈ [0x0, 0x8, 0xE] → nOf op = nOf op' →
    rowOf (decodeWord op) = rowOf (decodeWord op')) ∧
  (∀ op op' : Word, famOf op = 0xF → famOf op' = 0xF → kkOf op = kkOf op' → rowOf (decodeWord op) = rowOf (decodeWord op')) ∧
  (∀ op s, unassigned op → exec (decodeWord op) s = .next s)

/-- The other direction of the round trip: no bit that is part of the decode or of a field is lost or misplaced (R9, R71, R72). -/
def Obligations.EncodeOfDecodeKeepsUsedBits : Prop :=
  ∀ op : Word, encodeWord (decodeWord op) &&& usedBits (decodeWord op) = op &&& usedBits (decodeWord op)

/-- R77, which the spec marks as derived from its decode rules: the non-canonical words, the all-zero word among them. -/
def Obligations.AliasesDecode : Prop :=
  (∀ op, famOf op = 0x0 → nOf op = 0x0 → decodeWord op = .cls) ∧
  (∀ op, famOf op = 0x0 → nOf op = 0xE → decodeWord op = .ret) ∧
  (∀ op, famOf op = 0x5 → decodeWord op = .seR (xOf op) (yOf op)) ∧
  (∀ op, famOf op = 0x9 → decodeWord op = .sneR (xOf op) (yOf op)) ∧
  (∀ op, famOf op = 0xE → nOf op = 0xE → decodeWord op = .skp (xOf op)) ∧
  (∀ op, famOf op = 0xE → nOf op = 0x1 → decodeWord op = .sknp (xOf op)) ∧
  decodeWord 0x0000 = .cls

/-- Words written out from the encodings of R76 decode to the instructions they stand for, one of each format. -/
def Obligations.SampleWordsDecode : Prop :=
  decodeWord 0x00E0 = .cls ∧ decodeWord 0x1ABC = .jp 0xABC ∧ decodeWord 0x3A42 = .seI 0xA 0x42 ∧ decodeWord 0x5120 = .seR 0x1 0x2 ∧
  decodeWord 0x8125 = .sub 0x1 0x2 ∧ decodeWord 0xD015 = .drw 0x0 0x1 0x5 ∧ decodeWord 0xE29E = .skp 0x2 ∧ decodeWord 0xF255 = .ldMem 0x2

/-! ### The step (40_step_cycle.md), fetch (20_memory.md) -/

/-- R52: the byte at the lower address is the high byte of the opcode; with R91's condition on `pc`. -/
def Obligations.FetchIsBigEndian : Prop :=
  ∀ s : State, s.pc.toNat < 4095 →
    ∃ op, fetch s = .ok op ∧ op.toNat = 256 * (s.readByte s.pc.toNat).toNat + (s.readByte (s.pc.toNat + 1)).toNat

/-- R54, R162: the fetch reads `mem[pc]` and `mem[pc + 1]`; a step faults with `FETCH_RANGE` exactly when `pc >= 4095`, reports the
lowest out-of-range address (code 1), and leaves the state it started from. -/
def Obligations.FetchFaultExactly : Prop :=
  (∀ (s : State), s.pc.toNat < 4095 → fetch s = .ok (wordOfBytes (s.readByte s.pc.toNat) (s.readByte (s.pc.toNat + 1)))) ∧
  (∀ (s : State) (a : Nat),
    step s = .fault (.fetchRange a) ↔ 4095 ≤ s.pc.toNat ∧ a = (if 4096 ≤ s.pc.toNat then s.pc.toNat else 4096)) ∧
  (∀ (s : State) (inp : StepInput), 4095 ≤ s.pc.toNat →
    serve (.step inp) s = (s, .stepFault 1 (if 4096 ≤ s.pc.toNat then s.pc.toNat else 4096)))

/-- A step runs the decoded instruction (R90, R93): the inputs are sampled, `pc` is advanced by 2 (R92), the instruction is executed,
and the timers tick on what it left (R94); a fault voids the step (R166). -/
def Obligations.StepRunsDecodedInstruction : Prop :=
  ∀ (s : State) (i : Instr), s.pc.toNat < 4095 → decode [s.readByte s.pc.toNat, s.readByte (s.pc.toNat + 1)] = .ok (i, []) →
    step s =
      match exec i { s with pc := s.pc + 2, key := s.nextInput.keys, rnd := s.nextInput.random, pending := s.pending.tail,
                            draws := s.draws + 1 } with
      | .next u => .next { u with DT := tickTimer u.DT, ST := tickTimer u.ST, toneOn := decide (u.ST ≠ 0), toneStop := decide (u.ST = 1) }
      | .fault f => .fault f
      | .refused r => .refused r

/-- R94: phase 4 acts on what phase 3 left: each nonzero timer falls by 1 and stops at 0, `tone_on` says the sound timer was
decremented and `tone_stop` that it reached 0; nothing else changes; `tone_stop` implies `tone_on`. -/
def Obligations.TimersTickOncePerStep : Prop :=
  ∀ s t : State, step s = .next t →
    ∃ op u, fetch s = .ok op ∧ exec (decodeWord op) s.sample.advance = .next u ∧
      t.DT.toNat = u.DT.toNat - 1 ∧ t.ST.toNat = u.ST.toNat - 1 ∧
      (t.toneOn = true ↔ 0 < u.ST.toNat) ∧ (t.toneStop = true ↔ u.ST.toNat = 1) ∧ (t.toneStop = true → t.toneOn = true) ∧
      t = { u with DT := t.DT, ST := t.ST, toneOn := t.toneOn, toneStop := t.toneStop }

/-- R25, R92, R100: where `pc` stands after a step: 2 further, but for jumps, calls, returns, taken skips and the key wait. -/
def Obligations.PcMovesAsListed : Prop :=
  ∀ (s t : State) (op : Word), step s = .next t → fetch s = .ok op → t.pc = pcAfter (decodeWord op) s.sample.advance

/-- The unassigned codes of R78: nothing happens in phase 3 and none faults (R95). That the whole step advances `pc` by 2 and ticks the
timers is a sentence R95 marks as derived from R90, R92, R94; R78, R92 and R94 state it. -/
def Obligations.NoOpOnlyAdvancesAndTicks : Prop :=
  (∀ op : Word, unassigned op ↔ isNoOp (decodeWord op) = true) ∧
  (∀ (code : BitVec 12) (s : State), exec (.nop0 code) s = .next s ∧ exec (.nop8 code) s = .next s ∧
    exec (.nopE code) s = .next s ∧ exec (.nopF code) s = .next s) ∧
  (∀ (s : State) (op : Word), fetch s = .ok op → unassigned op →
    ∃ t, step s = .next t ∧ t.pc = s.pc + 2 ∧ t.DT.toNat = s.DT.toNat - 1 ∧ t.ST.toNat = s.ST.toNat - 1 ∧
      sameRegsBut [] s t ∧ t.I = s.I ∧ sameStack s t ∧ t.fb = s.fb ∧ sameMem s t)

/-! ### Control transfer (41_flow.md) -/

/-- R101: RET. The fault is the spec's decision D5 (log entry 4). -/
def Obligations.RetPopsOrUnderflows : Prop :=
  picks 0xF00F 0x000E (fun _ => .ret) ∧
  (∀ s : State, s.sp.val ≠ 0 → ∃ t, exec .ret s = .next t ∧ t.sp.val = s.sp.val - 1 ∧ s.stack[t.sp.val]? = some t.pc ∧
    t.stack = s.stack ∧ onlyPcAndStack s t) ∧
  (∀ s : State, s.sp.val = 0 → exec .ret s = .fault .stackUnderflow)

/-- R102: JP; and its loop: a jump to itself leaves `pc` constant across any number of steps while the timers count down. -/
def Obligations.JpSetsPc : Prop :=
  picks 0xF000 0x1000 (fun op => .jp (nnnOf op)) ∧
  (∀ (nnn : Addr) (s : State), ∃ t, exec (.jp nnn) s = .next t ∧ t.pc.toNat = nnn.toNat ∧ onlyPc s t) ∧
  (∀ (nnn : Addr) (n : Nat) (s : State), fetch s = .ok (encodeWord (.jp nnn)) → s.pc.toNat = nnn.toNat →
    ∃ t, Host.Core.run core n s = .next t ∧ t.pc = s.pc ∧ t.DT.toNat = s.DT.toNat - n ∧ t.ST.toNat = s.ST.toNat - n ∧
      sameRegsBut [] s t ∧ t.fb = s.fb ∧ sameMem s t)

/-- R103: CALL; and its round trip: a RET that finds the stack as the call left it returns to the instruction after the call. The
fault is the spec's decision D5 (log entry 4). -/
def Obligations.CallPushesOrOverflows : Prop :=
  picks 0xF000 0x2000 (fun op => .call (nnnOf op)) ∧
  (∀ (nnn : Addr) (s : State), s.sp.val < 16 →
    ∃ t, exec (.call nnn) s = .next t ∧ t.stack[s.sp.val]? = some s.pc ∧
      (∀ k : Nat, k ≠ s.sp.val → t.stack[k]? = s.stack[k]?) ∧ t.sp.val = s.sp.val + 1 ∧ t.pc.toNat = nnn.toNat ∧ onlyPcAndStack s t ∧
      (∀ v : State, v.stack = t.stack → v.sp = t.sp → ∃ w, exec .ret v = .next w ∧ w.pc = s.pc ∧ w.sp = s.sp)) ∧
  (∀ (nnn : Addr) (s : State), s.sp.val = 16 → exec (.call nnn) s = .fault .stackOverflow)

/-- R104, R105: SE and SNE with an immediate. -/
def Obligations.ImmediateSkips : Prop :=
  picks 0xF000 0x3000 (fun op => .seI (xOf op) (kkOf op)) ∧ picks 0xF000 0x4000 (fun op => .sneI (xOf op) (kkOf op)) ∧
  (∀ (x : Reg) (kk : Byte) (s : State), ∃ t, exec (.seI x kk) s = .next t ∧
    t.pc.toNat = (if s.getV x = kk then (s.pc.toNat + 2) % 65536 else s.pc.toNat) ∧ onlyPc s t) ∧
  (∀ (x : Reg) (kk : Byte) (s : State), ∃ t, exec (.sneI x kk) s = .next t ∧
    t.pc.toNat = (if s.getV x ≠ kk then (s.pc.toNat + 2) % 65536 else s.pc.toNat) ∧ onlyPc s t)

/-- R106, R107: SE and SNE of two registers; `x = y` always (never) skips. -/
def Obligations.RegisterSkips : Prop :=
  picks 0xF000 0x5000 (fun op => .seR (xOf op) (yOf op)) ∧ picks 0xF000 0x9000 (fun op => .sneR (xOf op) (yOf op)) ∧
  (∀ (x y : Reg) (s : State), ∃ t, exec (.seR x y) s = .next t ∧
    t.pc.toNat = (if s.getV x = s.getV y then (s.pc.toNat + 2) % 65536 else s.pc.toNat) ∧ onlyPc s t) ∧
  (∀ (x y : Reg) (s : State), ∃ t, exec (.sneR x y) s = .next t ∧
    t.pc.toNat = (if s.getV x ≠ s.getV y then (s.pc.toNat + 2) % 65536 else s.pc.toNat) ∧ onlyPc s t)

/-- R108: JP V0: the sum is not reduced to 12 bits and never wraps. -/
def Obligations.JpV0AddsV0 : Prop :=
  picks 0xF000 0xB000 (fun op => .jpV0 (nnnOf op)) ∧
  (∀ (nnn : Addr) (s : State), ∃ t, exec (.jpV0 nnn) s = .next t ∧ t.pc.toNat = nnn.toNat + (s.getV 0).toNat ∧
    t.pc.toNat ≤ 0x10FE ∧ onlyPc s t)

/-! ### Register load, arithmetic, logic, shifts, random (42_alu.md) -/

/-- R111, R112, R113: LD immediate, ADD immediate with no flag, LD register. -/
def Obligations.LoadsAndAddImmediate : Prop :=
  picks 0xF000 0x6000 (fun op => .ldI (xOf op) (kkOf op)) ∧ picks 0xF000 0x7000 (fun op => .addI (xOf op) (kkOf op)) ∧
  picks 0xF00F 0x8000 (fun op => .ldR (xOf op) (yOf op)) ∧
  (∀ (x : Reg) (kk : Byte) (s : State), ∃ t, exec (.ldI x kk) s = .next t ∧ t.getV x = kk ∧ onlyRegs [x] s t) ∧
  (∀ (x : Reg) (kk : Byte) (s : State), ∃ t, exec (.addI x kk) s = .next t ∧
    (t.getV x).toNat = ((s.getV x).toNat + kk.toNat) % 256 ∧ onlyRegs [x] s t) ∧
  (∀ (x y : Reg) (s : State), ∃ t, exec (.ldR x y) s = .next t ∧ t.getV x = s.getV y ∧ onlyRegs [x] s t)

/-- R114, R115, R116: OR, AND, XOR; `VF` is cleared always, also when it is the destination. -/
def Obligations.LogicClearsFlag : Prop :=
  picks 0xF00F 0x8001 (fun op => .orR (xOf op) (yOf op)) ∧ picks 0xF00F 0x8002 (fun op => .andR (xOf op) (yOf op)) ∧
  picks 0xF00F 0x8003 (fun op => .xorR (xOf op) (yOf op)) ∧
  (∀ (x y : Reg) (s : State), ∃ t, exec (.orR x y) s = .next t ∧ (x ≠ 15 → t.getV x = s.getV x ||| s.getV y) ∧ t.getV 15 = 0 ∧
    onlyRegs [x, 15] s t) ∧
  (∀ (x y : Reg) (s : State), ∃ t, exec (.andR x y) s = .next t ∧ (x ≠ 15 → t.getV x = s.getV x &&& s.getV y) ∧ t.getV 15 = 0 ∧
    onlyRegs [x, 15] s t) ∧
  (∀ (x y : Reg) (s : State), ∃ t, exec (.xorR x y) s = .next t ∧ (x ≠ 15 → t.getV x = s.getV x ^^^ s.getV y) ∧ t.getV 15 = 0 ∧
    onlyRegs [x, 15] s t)

/-- R117: ADD with carry out; the flag is exactly 1 iff the sum exceeds 255, also when `x = 15`. -/
def Obligations.AddReportsCarry : Prop :=
  picks 0xF00F 0x8004 (fun op => .addR (xOf op) (yOf op)) ∧
  (∀ (x y : Reg) (s : State), ∃ t, exec (.addR x y) s = .next t ∧
    (x ≠ 15 → (t.getV x).toNat = ((s.getV x).toNat + (s.getV y).toNat) % 256) ∧
    (t.getV 15).toNat = (if (s.getV x).toNat + (s.getV y).toNat > 255 then 1 else 0) ∧ onlyRegs [x, 15] s t)

/-- R118, R120: SUB and SUBN; the flag is 1 iff the minuend is strictly greater, 0 on equality. -/
def Obligations.SubtractsReportStrictOrder : Prop :=
  picks 0xF00F 0x8005 (fun op => .sub (xOf op) (yOf op)) ∧ picks 0xF00F 0x8007 (fun op => .subn (xOf op) (yOf op)) ∧
  (∀ (x y : Reg) (s : State), ∃ t, exec (.sub x y) s = .next t ∧
    (x ≠ 15 → ((t.getV x).toNat : Int) = ((s.getV x).toNat - (s.getV y).toNat : Int) % 256) ∧
    (t.getV 15).toNat = (if (s.getV x).toNat > (s.getV y).toNat then 1 else 0) ∧ onlyRegs [x, 15] s t) ∧
  (∀ (x y : Reg) (s : State), ∃ t, exec (.subn x y) s = .next t ∧
    (x ≠ 15 → ((t.getV x).toNat : Int) = ((s.getV y).toNat - (s.getV x).toNat : Int) % 256) ∧
    (t.getV 15).toNat = (if (s.getV y).toNat > (s.getV x).toNat then 1 else 0) ∧ onlyRegs [x, 15] s t)

/-- R119, R121: SHR and SHL by one; the register write is last, so it survives for `x = 15` (decision D2, log entry 4);
`V[y]` is not used. -/
def Obligations.ShiftsReportBitOut : Prop :=
  picks 0xF00F 0x8006 (fun op => .shr (xOf op) (yOf op)) ∧ picks 0xF00F 0x800E (fun op => .shl (xOf op) (yOf op)) ∧
  (∀ (x y : Reg) (s : State), ∃ t, exec (.shr x y) s = .next t ∧ (t.getV x).toNat = (s.getV x).toNat / 2 ∧
    (x ≠ 15 → (t.getV 15).toNat = (s.getV x).toNat % 2) ∧ onlyRegs [x, 15] s t) ∧
  (∀ (x y : Reg) (s : State), ∃ t, exec (.shl x y) s = .next t ∧ (t.getV x).toNat = (2 * (s.getV x).toNat) % 256 ∧
    (x ≠ 15 → (t.getV 15).toNat = (s.getV x).toNat / 128) ∧ onlyRegs [x, 15] s t)

/-- R122: RND: the step's random input masked by the immediate; every bit that is 0 in `kk` is 0 in the result. The input is free
(log entry 1): this holds for every value of it. -/
def Obligations.RndMasksInput : Prop :=
  picks 0xF000 0xC000 (fun op => .rnd (xOf op) (kkOf op)) ∧
  (∀ (x : Reg) (kk : Byte) (s : State), ∃ t, exec (.rnd x kk) s = .next t ∧
    (∀ k : Nat, (t.getV x).getLsbD k = (s.rnd.getLsbD k && kk.getLsbD k)) ∧ onlyRegs [x] s t)

/-- R123: the final registers of the flag-writing instructions when `x = 15` or `y = 15` (decision D2, log entry 4). -/
def Obligations.FlagRegisterAsOperand : Prop :=
  ∀ (r : Reg) (s : State),
    (∀ i ∈ [Instr.orR 15 r, .andR 15 r, .xorR 15 r], ∃ t, exec i s = .next t ∧ t.getV 15 = 0) ∧
    (∃ t, exec (.addR 15 r) s = .next t ∧ (t.getV 15).toNat = if (s.getV 15).toNat + (s.getV r).toNat > 255 then 1 else 0) ∧
    (∃ t, exec (.sub 15 r) s = .next t ∧ (t.getV 15).toNat = if (s.getV 15).toNat > (s.getV r).toNat then 1 else 0) ∧
    (∃ t, exec (.subn 15 r) s = .next t ∧ (t.getV 15).toNat = if (s.getV r).toNat > (s.getV 15).toNat then 1 else 0) ∧
    (∃ t, exec (.shr 15 r) s = .next t ∧ (t.getV 15).toNat = (s.getV 15).toNat / 2) ∧
    (∃ t, exec (.shl 15 r) s = .next t ∧ (t.getV 15).toNat = (2 * (s.getV 15).toNat) % 256) ∧
    (r ≠ 15 →
      (∃ t, exec (.orR r 15) s = .next t ∧ t.getV r = s.getV r ||| s.getV 15 ∧ t.getV 15 = 0) ∧
      (∃ t, exec (.andR r 15) s = .next t ∧ t.getV r = s.getV r &&& s.getV 15 ∧ t.getV 15 = 0) ∧
      (∃ t, exec (.xorR r 15) s = .next t ∧ t.getV r = s.getV r ^^^ s.getV 15 ∧ t.getV 15 = 0) ∧
      (∃ t, exec (.addR r 15) s = .next t ∧ (t.getV r).toNat = ((s.getV r).toNat + (s.getV 15).toNat) % 256 ∧
        (t.getV 15).toNat = if (s.getV r).toNat + (s.getV 15).toNat > 255 then 1 else 0) ∧
      (∃ t, exec (.sub r 15) s = .next t ∧ ((t.getV r).toNat : Int) = ((s.getV r).toNat - (s.getV 15).toNat : Int) % 256 ∧
        (t.getV 15).toNat = if (s.getV r).toNat > (s.getV 15).toNat then 1 else 0) ∧
      (∃ t, exec (.subn r 15) s = .next t ∧ ((t.getV r).toNat : Int) = ((s.getV 15).toNat - (s.getV r).toNat : Int) % 256 ∧
        (t.getV 15).toNat = if (s.getV 15).toNat > (s.getV r).toNat then 1 else 0) ∧
      (∃ t, exec (.shr r 15) s = .next t ∧ (t.getV r).toNat = (s.getV r).toNat / 2 ∧ (t.getV 15).toNat = (s.getV r).toNat % 2) ∧
      (∃ t, exec (.shl r 15) s = .next t ∧ (t.getV r).toNat = (2 * (s.getV r).toNat) % 256 ∧
        (t.getV 15).toNat = (s.getV r).toNat / 128))

/-! ### Index register and memory (43_index_memory.md) -/

/-- R130, R131, R132: LD I, ADD I (16-bit modular, no flag), LD F (no mask, no wrap). -/
def Obligations.IndexWrites : Prop :=
  picks 0xF000 0xA000 (fun op => .ldIndex (nnnOf op)) ∧ picks 0xF0FF 0xF01E (fun op => .addIndex (xOf op)) ∧
  picks 0xF0FF 0xF029 (fun op => .ldFont (xOf op)) ∧
  (∀ (nnn : Addr) (s : State), ∃ t, exec (.ldIndex nnn) s = .next t ∧ t.I.toNat = nnn.toNat ∧ onlyIndex s t) ∧
  (∀ (x : Reg) (s : State), ∃ t, exec (.addIndex x) s = .next t ∧ t.I.toNat = (s.I.toNat + (s.getV x).toNat) % 65536 ∧
    onlyIndex s t) ∧
  (∀ (x : Reg) (s : State), ∃ t, exec (.ldFont x) s = .next t ∧ t.I.toNat = 0x050 + 5 * (s.getV x).toNat ∧ onlyIndex s t)

/-- R133: LD B: hundreds, tens, units at `I`, `I+1`, `I+2`, or `DATA_RANGE` and none of them. -/
def Obligations.BcdStoresDigits : Prop :=
  picks 0xF0FF 0xF033 (fun op => .ldBcd (xOf op)) ∧
  (∀ (x : Reg) (s : State), s.I.toNat + 2 < 4096 → ∃ t, exec (.ldBcd x) s = .next t ∧
    (t.readByte s.I.toNat).toNat = (s.getV x).toNat / 100 ∧ (t.readByte (s.I.toNat + 1)).toNat = (s.getV x).toNat / 10 % 10 ∧
    (t.readByte (s.I.toNat + 2)).toNat = (s.getV x).toNat % 10 ∧ onlyMem s.I.toNat 3 s t) ∧
  (∀ (x : Reg) (s : State), 4096 ≤ s.I.toNat + 2 → exec (.ldBcd x) s = .fault (.dataRange (max s.I.toNat 4096)))

/-- LD [I] (R134): `V[0]`..`V[x]` stored at `I` upward; a load with the same `x` and `I` from the memory it leaves gives the registers
back; or `DATA_RANGE` and nothing stored (decision D3). That `I` stays is an inference R134 marks as derived; R40 lists the writers of
`I`. -/
def Obligations.StoreRegistersAtIndex : Prop :=
  picks 0xF0FF 0xF055 (fun op => .ldMem (xOf op)) ∧
  (∀ (x : Reg) (s : State), s.I.toNat + x.toNat < 4096 → ∃ t, exec (.ldMem x) s = .next t ∧
    (∀ r : Reg, r.toNat ≤ x.toNat → t.readByte (s.I.toNat + r.toNat) = s.getV r) ∧ onlyMem s.I.toNat (x.toNat + 1) s t ∧
    (∀ v : State, v.I = s.I → sameMem t v → ∃ w, exec (.ldRegs x) v = .next w ∧ ∀ r : Reg, r.toNat ≤ x.toNat → w.getV r = s.getV r)) ∧
  (∀ (x : Reg) (s : State), 4096 ≤ s.I.toNat + x.toNat → exec (.ldMem x) s = .fault (.dataRange (max s.I.toNat 4096)))

/-- R135: LD Vx,[I]: `V[0]`..`V[x]` loaded from `I` upward, the other registers and `I` unchanged; or `DATA_RANGE` and nothing loaded. -/
def Obligations.LoadRegistersFromIndex : Prop :=
  picks 0xF0FF 0xF065 (fun op => .ldRegs (xOf op)) ∧
  (∀ (x : Reg) (s : State), s.I.toNat + x.toNat < 4096 → ∃ t, exec (.ldRegs x) s = .next t ∧
    (∀ r : Reg, r.toNat ≤ x.toNat → t.getV r = s.readByte (s.I.toNat + r.toNat)) ∧
    (∀ r : Reg, x.toNat < r.toNat → t.getV r = s.getV r) ∧ onlyRegs (regsUpTo x) s t) ∧
  (∀ (x : Reg) (s : State), 4096 ≤ s.I.toNat + x.toNat → exec (.ldRegs x) s = .fault (.dataRange (max s.I.toNat 4096)))

/-! ### Framebuffer (44_display.md) -/

/-- R140: CLS: every pixel dark, nothing else changed; a draw that follows shows exactly the part of the sprite that is not clipped. -/
def Obligations.ClsClears : Prop :=
  picks 0xF00F 0x0000 (fun _ => .cls) ∧
  (∀ s : State, ∃ t, exec .cls s = .next t ∧ (∀ r c : Nat, t.pixel r c = false) ∧ onlyFb [] s t ∧
    (∀ (x y : Reg) (n : Nibble) (u : State), exec (.drw x y n) t = .next u → ∀ r c : Nat, r < 32 → c < 64 →
      (u.pixel r c = true ↔ ∃ k j : Nat, k < n.toNat ∧ j < 8 ∧ r = (s.getV y).toNat % 32 + k ∧ c = (s.getV x).toNat % 64 + j ∧
        (s.readByte (s.I.toNat + k)).getLsbD (7 - j) = true)))

/-- R142, R143, and the loop and the flag of R141: DRW. The origin wraps, the sprite clips; each drawn sprite bit inverts its pixel;
`VF` is 1 iff a lit pixel was turned off; `n = 0` reads nothing and cannot fault; all `n` bytes are range-checked. The bit and row
order, the edge policy and the range check are the spec's decisions D19, D6, D22 (log entry 4). -/
def Obligations.DrwXorsSprite : Prop :=
  picks 0xF000 0xD000 (fun op => .drw (xOf op) (yOf op) (nOf op)) ∧
  (∀ (x y : Reg) (n : Nibble) (s : State), n.toNat = 0 ∨ s.I.toNat + n.toNat ≤ 4096 →
    ∃ t, exec (.drw x y n) s = .next t ∧
      (∀ k j : Nat, k < n.toNat → j < 8 → (s.getV y).toNat % 32 + k < 32 → (s.getV x).toNat % 64 + j < 64 →
        t.pixel ((s.getV y).toNat % 32 + k) ((s.getV x).toNat % 64 + j) =
          (s.pixel ((s.getV y).toNat % 32 + k) ((s.getV x).toNat % 64 + j) ^^ (s.readByte (s.I.toNat + k)).getLsbD (7 - j))) ∧
      (∀ r c : Nat, (∀ k j : Nat, k < n.toNat → j < 8 → ¬ (r = (s.getV y).toNat % 32 + k ∧ c = (s.getV x).toNat % 64 + j)) →
        t.pixel r c = s.pixel r c) ∧
      (t.getV 15 = 0 ∨ t.getV 15 = 1) ∧
      (t.getV 15 = 1 ↔ ∃ r c : Nat, r < 32 ∧ c < 64 ∧ s.pixel r c = true ∧ t.pixel r c = false) ∧ onlyFb [15] s t) ∧
  (∀ (x y : Reg) (n : Nibble) (s : State), n.toNat ≠ 0 → 4096 < s.I.toNat + n.toNat →
    exec (.drw x y n) s = .fault (.dataRange (max s.I.toNat 4096)))

/-- Drawing the same sprite twice at the same place restores the framebuffer (44_display.md). The second draw collides iff the first
lit a pixel; so it does, where the first reported no collision, iff the sprite has a drawn set bit. That condition is the model's
reading of the corner case (log entry 9): over lit pixels the draw's own loop gives no second collision. -/
def Obligations.DrawTwiceRestores : Prop :=
  ∀ (x y : Reg) (n : Nibble) (s t u : State), x ≠ 15 → y ≠ 15 → exec (.drw x y n) s = .next t → exec (.drw x y n) t = .next u →
    (∀ r c : Nat, u.pixel r c = s.pixel r c) ∧ (t.fb = s.fb → u.getV 15 = 0) ∧
    (u.getV 15 = 1 ↔ ∃ r c : Nat, r < 32 ∧ c < 64 ∧ s.pixel r c = false ∧ t.pixel r c = true) ∧
    (t.getV 15 = 0 → (u.getV 15 = 1 ↔ ∃ k j : Nat, k < n.toNat ∧ j < 8 ∧ (s.getV y).toNat % 32 + k < 32 ∧
      (s.getV x).toNat % 64 + j < 64 ∧ (s.readByte (s.I.toNat + k)).getLsbD (7 - j) = true))

/-! ### Keypad, timers (45_keypad_timers.md) -/

/-- R150, R151: SKP and SKNP on the level of the key in this step's sample; `KEY_INDEX` for `V[x] > 15` (decision D7). -/
def Obligations.KeySkips : Prop :=
  picks 0xF00F 0xE00E (fun op => .skp (xOf op)) ∧ picks 0xF00F 0xE001 (fun op => .sknp (xOf op)) ∧
  (∀ (x : Reg) (s : State), (s.getV x).toNat ≤ 15 → ∃ t, exec (.skp x) s = .next t ∧
    t.pc.toNat = (if s.key.getLsbD (s.getV x).toNat = true then (s.pc.toNat + 2) % 65536 else s.pc.toNat) ∧ onlyPc s t) ∧
  (∀ (x : Reg) (s : State), (s.getV x).toNat ≤ 15 → ∃ t, exec (.sknp x) s = .next t ∧
    t.pc.toNat = (if s.key.getLsbD (s.getV x).toNat = false then (s.pc.toNat + 2) % 65536 else s.pc.toNat) ∧ onlyPc s t) ∧
  (∀ (x : Reg) (s : State), 15 < (s.getV x).toNat →
    exec (.skp x) s = .fault (.keyIndex (s.getV x)) ∧ exec (.sknp x) s = .fault (.keyIndex (s.getV x)))

/-- R152: the key wait: the lowest pressed key into `V[x]`, else back to the instruction's own address; a whole waiting step leaves
`pc` where it was and ticks the timers, a whole step with a key pressed advances `pc` by 2. -/
def Obligations.KeyWaitTakesLowest : Prop :=
  picks 0xF0FF 0xF00A (fun op => .ldKey (xOf op)) ∧
  (∀ (x : Reg) (s : State) (k : Nat), k < 16 → s.key.getLsbD k = true → (∀ j < k, s.key.getLsbD j = false) →
    ∃ t, exec (.ldKey x) s = .next t ∧ (t.getV x).toNat = k ∧ onlyRegs [x] s t) ∧
  (∀ (x : Reg) (s : State), (∀ k < 16, s.key.getLsbD k = false) →
    ∃ t, exec (.ldKey x) s = .next t ∧ t.pc = s.pc - 2 ∧ onlyPc s t) ∧
  (∀ (x : Reg) (s : State) (op : Word), fetch s = .ok op → decodeWord op = .ldKey x → (∀ k < 16, s.nextInput.keys.getLsbD k = false) →
    ∃ t, step s = .next t ∧ t.pc = s.pc ∧ sameRegsBut [] s t ∧ t.DT.toNat = s.DT.toNat - 1 ∧ t.ST.toNat = s.ST.toNat - 1) ∧
  (∀ (x : Reg) (s : State) (op : Word), fetch s = .ok op → decodeWord op = .ldKey x → (∃ k < 16, s.nextInput.keys.getLsbD k = true) →
    ∃ t, step s = .next t ∧ t.pc = s.pc + 2 ∧ s.nextInput.keys.getLsbD (t.getV x).toNat = true)

/-- LD Vx,DT, LD DT,Vx, LD ST,Vx (R153, R154, R155), each with what phase 4 of the same step then leaves: for LD DT,Vx that is a
sentence R154 marks as derived from R94, which states it. -/
def Obligations.TimerMoves : Prop :=
  picks 0xF0FF 0xF007 (fun op => .ldFromDT (xOf op)) ∧ picks 0xF0FF 0xF015 (fun op => .ldDT (xOf op)) ∧
  picks 0xF0FF 0xF018 (fun op => .ldST (xOf op)) ∧
  (∀ (x : Reg) (s : State), ∃ t, exec (.ldFromDT x) s = .next t ∧ t.getV x = s.DT ∧ onlyRegs [x] s t ∧
    t.tick.getV x = s.DT ∧ t.tick.DT.toNat = s.DT.toNat - 1) ∧
  (∀ (x : Reg) (s : State), ∃ t, exec (.ldDT x) s = .next t ∧ t.DT = s.getV x ∧ t.ST = s.ST ∧ onlyTimers s t ∧
    t.tick.DT.toNat = (s.getV x).toNat - 1) ∧
  (∀ (x : Reg) (s : State), ∃ t, exec (.ldST x) s = .next t ∧ t.ST = s.getV x ∧ t.DT = s.DT ∧ onlyTimers s t ∧
    t.tick.ST.toNat = (s.getV x).toNat - 1 ∧ (t.tick.toneOn = true ↔ 0 < (s.getV x).toNat) ∧
    (t.tick.toneStop = true ↔ (s.getV x).toNat = 1))

/-! ### Faults (60_exceptions.md) -/

/-- Each instruction raises its one cause exactly under its condition: R55, R163 to R167 (decisions D3, D5, D7, D22, log entry 4), with
R161 for 'exactly'. A step faults at the fetch (R54, R97) or in phase 3. The order, and that there is at most one cause, is R171, which
the spec marks as derived from R161 to R167. -/
def Obligations.FaultsExactlyAsListed : Prop :=
  (∀ (i : Instr) (s : State) (f : Fault), exec i s = .fault f ↔ faultOf i s = some f) ∧
  (∀ (s : State) (f : Fault), step s = .fault f ↔
    (4095 ≤ s.pc.toNat ∧ f = .fetchRange (max s.pc.toNat 4096)) ∨ (∃ op, fetch s = .ok op ∧ faultOf (decodeWord op) s = some f))

/-- R174, R13: there is no illegal instruction and no refusal: a step whose word is fetched and meets no cause of R161 ends in a next
state, for every word. -/
def Obligations.EveryWordExecutes : Prop :=
  (∀ (op : Word) (s : State), faultOf (decodeWord op) s = none → ∃ t, exec (decodeWord op) s = .next t) ∧
  (∀ (s : State) (r : Refusal), step s ≠ .refused r) ∧
  (∀ (s : State), stepsOk s ↔ ∃ op, fetch s = .ok op ∧ faultOf (decodeWord op) s = none)

/-- R166: a faulting step changes nothing: what the host is left with is the state before it, and no tone output
(decision D8, log entry 4). -/
def Obligations.FaultChangesNothing : Prop :=
  ∀ (inp : StepInput) (s t : State) (code info : Nat), serve (.step inp) s = (t, .stepFault code info) → t = s

/-- R173, which the spec marks as derived: an ignored fault repeats for ever, whatever the inputs of the later steps: no cause depends
on `key` or `rnd`. -/
def Obligations.IgnoredFaultRepeats : Prop :=
  ∀ (inps : List StepInput) (inp inp' : StepInput) (s t : State) (code info : Nat), serve (.step inp) s = (t, .stepFault code info) →
    serve (.step inp') (serveAll (inps.map Request.step) t) = (s, .stepFault code info)

/-! ### Inputs, and what the whole instruction set may touch -/

/-- R96: only SKP, SKNP and LD Vx,K depend on the keys and only RND on the random byte: any other instruction does the same for every
input. -/
def Obligations.InputsReachOnlyTheirReaders : Prop :=
  ∀ (i : Instr) (s : State) (k : Keys) (r : Byte),
    (readsKeys i = false → exec i { s with key := k } = mapNext (fun t => { t with key := k }) (exec i s)) ∧
    (readsRandom i = false → exec i { s with rnd := r } = mapNext (fun t => { t with rnd := r }) (exec i s))

/-- R96, R97: a step samples its inputs once and is a function of the state and that sample; the earlier sample and the earlier
outputs do not matter. The model's form of the inputs is log entry 1. -/
def Obligations.StepDependsOnSampledInputs : Prop :=
  (∀ (s : State) (k : Keys) (r : Byte) (a b : Bool), step { s with key := k, rnd := r, toneOn := a, toneStop := b } = step s) ∧
  (∀ (s : State), stepWith s.nextInput { s with pending := s.pending.tail } = step s) ∧
  (∀ (s t : State), step s = .next t → t.key = s.nextInput.keys ∧ t.rnd = s.nextInput.random ∧ t.pending = s.pending.tail ∧
    t.draws = s.draws + 1 ∧ t.font = s.font)

/-- R21 and the table of R22: an instruction changes only its destination register, and `VF` if it is one of the nine instructions of
that table. R22 counts twelve where its table lists nine; the model takes the table (log entry 14). -/
def Obligations.OnlyListedRegistersWritten : Prop :=
  ∀ (i : Instr) (s t : State), exec i s = .next t → sameRegsBut (writtenRegs i) s t

/-- R40, R50, R31: the only writers of `I`, `pc`, `sp`, `stack`, `DT`, `ST`, `fb` and `mem` in phase 3. -/
def Obligations.OnlyListedStateWritten : Prop :=
  ∀ (i : Instr) (s t : State), exec i s = .next t →
    (writesIndex i = false → t.I = s.I) ∧ (writesPc i = false → t.pc = s.pc) ∧
    ((∀ nnn, i ≠ .call nnn) → t.stack = s.stack ∧ (i ≠ .ret → t.sp = s.sp)) ∧
    ((∀ x, i ≠ .ldDT x) → t.DT = s.DT) ∧ ((∀ x, i ≠ .ldST x) → t.ST = s.ST) ∧
    (i ≠ .cls → (∀ x y n, i ≠ .drw x y n) → t.fb = s.fb) ∧ sameMemOutside s.I.toNat (storeLen i) s t ∧ sameBoundary s t

/-- R62, which the spec marks as derived: a store is seen by the next fetch: after LD [I], a word fetched from inside the stored range
is made of the stored registers. -/
def Obligations.FetchSeesStore : Prop :=
  ∀ (x k : Reg) (s t : State), exec (.ldMem x) s = .next t → s.I.toNat + k.toNat = s.pc.toNat → k.toNat + 1 ≤ x.toNat →
    fetch t = .ok (wordOfBytes (s.getV k) (s.getV (k + 1)))

/-! ### Invariants -/

/-- Every step keeps the canonical form of memory: addresses rising and below 4096, nothing listed that equals the reset contents. The
form is the model's own (DESIGN CHOICE, log entry 11); the spec gives 4096 plain bytes (R30, R51). -/
def Obligations.StepKeepsMemoryForm : Prop :=
  ∀ s t : State, s.memWf → step s = .next t → t.memWf

/-- R39, which the spec marks as derived: 0x10FE is the largest `pc` a step can reach, given that return addresses are at most 4096,
which every step keeps. -/
def Obligations.StepKeepsPcBound : Prop :=
  ∀ s t : State, s.pcBounded → step s = .next t → t.pcBounded

/-- The reset state meets both invariants, for every font and whatever inputs a reset keeps (log entry 7). The form of memory in `Inv`
is the model's own (DESIGN CHOICE, log entry 11); the bound on `pc` is R39's. -/
def Obligations.ResetMeetsInvariants : Prop :=
  State.reset.Inv ∧ ∀ s : State, (hostReset s).Inv

/-- Every sequence of host requests, resets and loads of any bytes among them (R195, R197), keeps both invariants. The form of memory
in `Inv` is the model's own (DESIGN CHOICE, log entry 11); the bound on `pc` is R39's. -/
def Obligations.RequestsKeepInvariants : Prop :=
  ∀ (reqs : List Request) (s : State), s.Inv → (serveAll reqs s).Inv

/-! ### Reset, load, boot (70_reset_and_hazards.md) -/

/-- R37, R190: what reset leaves, from any state and for any FONT. The values of the model's own fields are not part of the rule. -/
def Obligations.ResetValues : Prop :=
  (∀ s : State, (hostReset s).pc = 0x0200 ∧ (hostReset s).I = 0 ∧ (hostReset s).sp = 0 ∧ (hostReset s).DT = 0 ∧ (hostReset s).ST = 0 ∧
    (∀ r, (hostReset s).getV r = 0) ∧ (∀ (k : Nat) (h : k < 16), (hostReset s).stack[k] = 0) ∧
    (∀ r c : Nat, (hostReset s).pixel r c = false) ∧
    (∀ (k : Nat) (h : k < 80), (hostReset s).readByte (0x050 + k) = s.font[k]) ∧
    (∀ a : Nat, a < 0x050 ∨ 0x0A0 ≤ a → (hostReset s).readByte a = 0)) ∧
  State.reset = hostReset State.reset

/-- R196: `loadProgram`: at most 3584 bytes are copied to 0x200 upward and nothing else changes, the first byte being the high byte of
the instruction fetched at 0x200; more are rejected and change nothing. -/
def Obligations.LoadCopiesOrRejects : Prop :=
  (∀ (bytes : List Byte) (s : State), bytes.length ≤ 3584 → ∃ t, loadProgram bytes s = .ok t ∧
    (∀ (k : Nat) (h : k < bytes.length), t.readByte (0x200 + k) = bytes[k]) ∧ onlyMem 0x200 bytes.length s t) ∧
  (∀ (hi : Byte) (rest : List Byte) (s t : State) (op : Word), loadProgram (hi :: rest) s = .ok t → s.pc.toNat = 0x200 →
    fetch t = .ok op → op.toNat / 256 = hi.toNat) ∧
  (∀ (bytes : List Byte) (s : State), 3584 < bytes.length →
    loadProgram bytes s = .error (.tooLarge bytes.length) ∧ serve (.loadProgram bytes) s = (s, .loadError 6 bytes.length))

/-- R193, which the spec marks as derived: after reset and a load, the first instruction is the first two bytes of the program, at 0x200. -/
def Obligations.BootFetchesFirstWord : Prop :=
  ∀ (hi lo : Byte) (rest : List Byte) (s t : State), loadProgram (hi :: lo :: rest) (hostReset s) = .ok t →
    t.pc = 0x0200 ∧ fetch t = .ok (wordOfBytes hi lo)

/-- R207, which the spec marks as derived: zeroed memory executes CLS: the step clears the framebuffer and goes on by 2. -/
def Obligations.ZeroedMemoryClears : Prop :=
  ∀ s : State, s.pc.toNat < 4095 → s.readByte s.pc.toNat = 0 → s.readByte (s.pc.toNat + 1) = 0 →
    ∃ t, step s = .next t ∧ t.pc = s.pc + 2 ∧ (∀ r c : Nat, t.pixel r c = false) ∧ t.getV 15 = s.getV 15

/-- R33, R132: after reset, LD F points `I` at the five bytes of the glyph of a digit, for every FONT. -/
def Obligations.GlyphOfDigit : Prop :=
  ∀ (x : Reg) (v : Byte) (s : State), v.toNat < 16 → ∃ t, exec (.ldFont x) ((hostReset s).setV x v) = .next t ∧
    ∀ (k : Nat) (h : 5 * v.toNat + k < 80), k < 5 → t.readByte (t.I.toNat + k) = s.font[5 * v.toNat + k]

/-! ### The core's state and what stands beside it (10_state.md R20, R36; 40_step_cycle.md R97) -/

/-- R97, R20: a step is a function of the core's nine items and the two inputs it samples, for the parameter FONT: the core's state after
it, its tone outputs and its fault depend on nothing else that a state holds. What a state holds beside them is the model's own
(log entries 1, 5, 15). -/
def Obligations.StepIsFunctionOfCoreAndInputs : Prop :=
  ∀ s : State, stepResult (step s) = coreStep s.font s.nextInput s.toCoreState

/-- R20, R36 (which the spec marks as derived): whatever the host requests and reads, two machines with the same core state and font
answer it alike; so the fields beside the core's state are no state a program or the host can observe (log entries 1, 5, 15). -/
def Obligations.HostSeesOnlyCoreState : Prop :=
  ∀ (reqs : List Request) (req : Request) (s t : State), s.toCoreState = t.toCoreState → s.font = t.font →
    (serve req (serveAll reqs s)).2 = (serve req (serveAll reqs t)).2 ∧ hostView (serveAll reqs s) = hostView (serveAll reqs t) ∧
    (serveAll reqs s).toCoreState = (serveAll reqs t).toCoreState
end

