-- ==== Sys2Proof/Laws/Decode.lean ====
section
/-! SUPPORT. The fields of encoded words, words from their fields, and what a mask tells of the fields. -/

namespace Sys2Proof

/-! ### The bits of an encoded word -/

theorem getLsbD_encNNN (f : Nibble) (a : BitVec 12) (i : Nat) :
    (encNNN f a).getLsbD i = if i < 12 then a.getLsbD i else f.getLsbD (i - 12) :=
  (BitVec.getLsbD_append (x := f) (y := a)).trans (by split <;> simp [*])

theorem getLsbD_byteOfNibbles (f x : Nibble) (i : Nat) :
    (f ++ x : BitVec 8).getLsbD i = if i < 4 then x.getLsbD i else f.getLsbD (i - 4) :=
  (BitVec.getLsbD_append (x := f) (y := x)).trans (by split <;> simp [*])

theorem getLsbD_encXKK (f : Nibble) (x : Reg) (k : Byte) (i : Nat) :
    (encXKK f x k).getLsbD i =
      if i < 8 then k.getLsbD i else if i - 8 < 4 then x.getLsbD (i - 8) else f.getLsbD (i - 8 - 4) := by
  refine (BitVec.getLsbD_append (x := (f ++ x : BitVec 8)) (y := k)).trans ?_
  by_cases h : i < 8
  · rw [if_pos h, if_pos h]
  · rw [if_neg h, if_neg h]; exact getLsbD_byteOfNibbles f x (i - 8)

theorem getLsbD_encXYN (f : Nibble) (x y : Reg) (n : Nibble) (i : Nat) :
    (encXYN f x y n).getLsbD i =
      if i < 8 then (if i < 4 then n.getLsbD i else y.getLsbD (i - 4))
      else if i - 8 < 4 then x.getLsbD (i - 8) else f.getLsbD (i - 8 - 4) := by
  refine (BitVec.getLsbD_append (x := (f ++ x : BitVec 8)) (y := (y ++ n : BitVec 8))).trans ?_
  by_cases h : i < 8
  · rw [if_pos h, if_pos h]; exact getLsbD_byteOfNibbles y n i
  · rw [if_neg h, if_neg h]; exact getLsbD_byteOfNibbles f x (i - 8)

theorem getLsbD_wordOfBytes (hi lo : Byte) (i : Nat) :
    (wordOfBytes hi lo).getLsbD i = if i < 8 then lo.getLsbD i else hi.getLsbD (i - 8) :=
  (BitVec.getLsbD_append (x := hi) (y := lo)).trans (by split <;> simp [*])

/-! ### Fields of an encoded word -/

@[simp] theorem famOf_encNNN (f : Nibble) (a : BitVec 12) : famOf (encNNN f a) = f := by
  apply BitVec.eq_of_getLsbD_eq; intro i hi
  simp [famOf, getLsbD_encNNN, hi]

@[simp] theorem nnnOf_encNNN (f : Nibble) (a : BitVec 12) : nnnOf (encNNN f a) = a := by
  apply BitVec.eq_of_getLsbD_eq; intro i hi
  simp [nnnOf, getLsbD_encNNN, hi]

@[simp] theorem nOf_encNNN (f : Nibble) (a : BitVec 12) : nOf (encNNN f a) = codeNibble a := by
  apply BitVec.eq_of_getLsbD_eq; intro i hi
  simp [nOf, getLsbD_encNNN, hi, show i < 12 by omega]

@[simp] theorem kkOf_encNNN (f : Nibble) (a : BitVec 12) : kkOf (encNNN f a) = codeByte a := by
  apply BitVec.eq_of_getLsbD_eq; intro i hi
  simp [kkOf, getLsbD_encNNN, hi, show i < 12 by omega]

@[simp] theorem famOf_encXKK (f : Nibble) (x : Reg) (k : Byte) : famOf (encXKK f x k) = f := by
  apply BitVec.eq_of_getLsbD_eq; intro i hi
  simp [famOf, getLsbD_encXKK, hi, show ¬ 12 + i < 8 by omega, show 12 + i - 8 = 4 + i by omega]

@[simp] theorem xOf_encXKK (f : Nibble) (x : Reg) (k : Byte) : xOf (encXKK f x k) = x := by
  apply BitVec.eq_of_getLsbD_eq; intro i hi
  simp [xOf, getLsbD_encXKK, hi]

@[simp] theorem kkOf_encXKK (f : Nibble) (x : Reg) (k : Byte) : kkOf (encXKK f x k) = k := by
  apply BitVec.eq_of_getLsbD_eq; intro i hi
  simp [kkOf, getLsbD_encXKK, hi]

theorem nOf_encXKK (f : Nibble) (x : Reg) (k : Byte) : nOf (encXKK f x k) = k.extractLsb' 0 4 := by
  apply BitVec.eq_of_getLsbD_eq; intro i hi
  simp [nOf, getLsbD_encXKK, hi, show i < 8 by omega]

@[simp] theorem famOf_encXYN (f : Nibble) (x y : Reg) (n : Nibble) : famOf (encXYN f x y n) = f := by
  apply BitVec.eq_of_getLsbD_eq; intro i hi
  simp [famOf, getLsbD_encXYN, hi, show ¬ 12 + i < 8 by omega, show 12 + i - 8 = 4 + i by omega]

@[simp] theorem xOf_encXYN (f : Nibble) (x y : Reg) (n : Nibble) : xOf (encXYN f x y n) = x := by
  apply BitVec.eq_of_getLsbD_eq; intro i hi
  simp [xOf, getLsbD_encXYN, hi]

@[simp] theorem yOf_encXYN (f : Nibble) (x y : Reg) (n : Nibble) : yOf (encXYN f x y n) = y := by
  apply BitVec.eq_of_getLsbD_eq; intro i hi
  simp [yOf, getLsbD_encXYN, hi, show 4 + i < 8 by omega]

@[simp] theorem nOf_encXYN (f : Nibble) (x y : Reg) (n : Nibble) : nOf (encXYN f x y n) = n := by
  apply BitVec.eq_of_getLsbD_eq; intro i hi
  simp [nOf, getLsbD_encXYN, hi, show i < 8 by omega]

/-! ### A word from its fields -/

theorem encNNN_fields (op : Word) : encNNN (famOf op) (nnnOf op) = op := by
  apply BitVec.eq_of_getLsbD_eq; intro i hi
  simp only [getLsbD_encNNN, famOf, nnnOf, BitVec.getLsbD_extractLsb']
  by_cases h : i < 12
  · simp [h]
  · simp [h, show i - 12 < 4 by omega, show 12 + (i - 12) = i by omega]

theorem encXKK_fields (op : Word) : encXKK (famOf op) (xOf op) (kkOf op) = op := by
  apply BitVec.eq_of_getLsbD_eq; intro i hi
  simp only [getLsbD_encXKK, famOf, xOf, kkOf, BitVec.getLsbD_extractLsb']
  by_cases h : i < 8
  · simp [h]
  · by_cases h' : i - 8 < 4
    · simp [h, h', show 8 + (i - 8) = i by omega]
    · simp [h, h', show i - 8 - 4 < 4 by omega, show 12 + (i - 8 - 4) = i by omega]

theorem encXYN_fields (op : Word) : encXYN (famOf op) (xOf op) (yOf op) (nOf op) = op := by
  apply BitVec.eq_of_getLsbD_eq; intro i hi
  simp only [getLsbD_encXYN, famOf, xOf, yOf, nOf, BitVec.getLsbD_extractLsb']
  by_cases h : i < 8
  · by_cases h' : i < 4
    · simp [h, h']
    · simp [h, h', show i - 4 < 4 by omega, show 4 + (i - 4) = i by omega]
  · by_cases h' : i - 8 < 4
    · simp [h, h', show 8 + (i - 8) = i by omega]
    · simp [h, h', show i - 8 - 4 < 4 by omega, show 12 + (i - 8 - 4) = i by omega]

/-- The two bytes of a word, and the word of two bytes. -/
theorem wordOfBytes_bytesOfWord (op : Word) : wordOfBytes (op.extractLsb' 8 8) (op.extractLsb' 0 8) = op := by
  apply BitVec.eq_of_getLsbD_eq; intro i hi
  simp only [getLsbD_wordOfBytes, BitVec.getLsbD_extractLsb']
  by_cases h : i < 8
  · simp [h]
  · simp [h, show i - 8 < 8 by omega, show 8 + (i - 8) = i by omega]

/-- The decoder on the bytes of an instruction's word reads that word. -/
theorem decode_bytesOfWord (op : Word) (rest : List Byte) : decode (bytesOfWord op ++ rest) = .ok (decodeWord op, rest) := by
  show Except.ok (decodeWord (wordOfBytes _ _), rest) = _
  rw [wordOfBytes_bytesOfWord]

/-! ### What a mask tells of the fields -/

theorem famOf_and (op m : Word) : famOf (op &&& m) = famOf op &&& famOf m := by
  apply BitVec.eq_of_getLsbD_eq; intro i hi; simp [famOf, hi]

theorem nOf_and (op m : Word) : nOf (op &&& m) = nOf op &&& nOf m := by
  apply BitVec.eq_of_getLsbD_eq; intro i hi; simp [nOf, hi]

theorem kkOf_and (op m : Word) : kkOf (op &&& m) = kkOf op &&& kkOf m := by
  apply BitVec.eq_of_getLsbD_eq; intro i hi; simp [kkOf, hi]

/-- Mask 0xF000 selects the family. -/
theorem famOf_of_mask {op bits : Word} (h : op &&& 0xF000 = bits) : famOf op = famOf bits := by
  rw [← h, famOf_and, show famOf 0xF000 = BitVec.allOnes 4 by decide, BitVec.and_allOnes]

/-- Mask 0xF00F selects the family and the low nibble. -/
theorem fields_of_maskF00F {op bits : Word} (h : op &&& 0xF00F = bits) : famOf op = famOf bits ∧ nOf op = nOf bits := by
  constructor
  · rw [← h, famOf_and, show famOf 0xF00F = BitVec.allOnes 4 by decide, BitVec.and_allOnes]
  · rw [← h, nOf_and, show nOf 0xF00F = BitVec.allOnes 4 by decide, BitVec.and_allOnes]

/-- Mask 0xF0FF selects the family and the low byte. -/
theorem fields_of_maskF0FF {op bits : Word} (h : op &&& 0xF0FF = bits) : famOf op = famOf bits ∧ kkOf op = kkOf bits := by
  constructor
  · rw [← h, famOf_and, show famOf 0xF0FF = BitVec.allOnes 4 by decide, BitVec.and_allOnes]
  · rw [← h, kkOf_and, show kkOf 0xF0FF = BitVec.allOnes 8 by decide, BitVec.and_allOnes]

/-- A masked word is made of the selected fields alone. -/
theorem and_F000 (op : Word) : op &&& 0xF000 = encNNN (famOf op) 0 := by
  rw [← encNNN_fields (op &&& 0xF000), famOf_and, show famOf 0xF000 = BitVec.allOnes 4 by decide, BitVec.and_allOnes]
  congr 1
  apply BitVec.eq_of_getLsbD_eq; intro i hi
  have : (0xF000#16).getLsbD i = false := by interval_cases i <;> rfl
  simp [nnnOf, hi, this]

theorem and_F00F (op : Word) : op &&& 0xF00F = encXYN (famOf op) 0 0 (nOf op) := by
  rw [← encXYN_fields (op &&& 0xF00F), famOf_and, nOf_and, show famOf 0xF00F = BitVec.allOnes 4 by decide,
    show nOf 0xF00F = BitVec.allOnes 4 by decide, BitVec.and_allOnes, BitVec.and_allOnes]
  congr 1
  · apply BitVec.eq_of_getLsbD_eq; intro i hi
    have : (0xF00F#16).getLsbD (8 + i) = false := by interval_cases i <;> rfl
    simp [xOf, hi, this]
  · apply BitVec.eq_of_getLsbD_eq; intro i hi
    have : (0xF00F#16).getLsbD (4 + i) = false := by interval_cases i <;> rfl
    simp [yOf, hi, this]

theorem and_F0FF (op : Word) : op &&& 0xF0FF = encXKK (famOf op) 0 (kkOf op) := by
  rw [← encXKK_fields (op &&& 0xF0FF), famOf_and, kkOf_and, show famOf 0xF0FF = BitVec.allOnes 4 by decide,
    show kkOf 0xF0FF = BitVec.allOnes 8 by decide, BitVec.and_allOnes, BitVec.and_allOnes]
  congr 1
  apply BitVec.eq_of_getLsbD_eq; intro i hi
  have : (0xF0FF#16).getLsbD (8 + i) = false := by interval_cases i <;> rfl
  simp [xOf, hi, this]

/-- The secondary codes of a word are those of its twelve bits below the family. -/
theorem codeNibble_nnnOf (op : Word) : codeNibble (nnnOf op) = nOf op := by
  apply BitVec.eq_of_getLsbD_eq; intro i hi; simp [nnnOf, nOf]

theorem codeByte_nnnOf (op : Word) : codeByte (nnnOf op) = kkOf op := by
  apply BitVec.eq_of_getLsbD_eq; intro i hi; simp [nnnOf, kkOf]

/-- A row of mask 0xF000 picks by the family (R73). -/
theorem picks_F000 {bits : Word} {f : Word → Instr} (h : ∀ op, famOf op = famOf bits → decodeWord op = f op) :
    Machine.picks 0xF000 bits f := fun op ho => h op (famOf_of_mask ho)

/-- A row of mask 0xF00F picks by the family and the low nibble (R74, R75). -/
theorem picks_F00F {bits : Word} {f : Word → Instr} (h : ∀ op, famOf op = famOf bits → nOf op = nOf bits → decodeWord op = f op) :
    Machine.picks 0xF00F bits f := fun op ho => h op (fields_of_maskF00F ho).1 (fields_of_maskF00F ho).2

/-- A row of mask 0xF0FF picks by the family and the low byte (R74). -/
theorem picks_F0FF {bits : Word} {f : Word → Instr} (h : ∀ op, famOf op = famOf bits → kkOf op = kkOf bits → decodeWord op = f op) :
    Machine.picks 0xF0FF bits f := fun op ho => h op (fields_of_maskF0FF ho).1 (fields_of_maskF0FF ho).2

/-- Level 1 of the decode, by the family (R73): one equation per family. -/
theorem decodeWord_fam (op : Word) :
    (famOf op = 0x0 → decodeWord op = decode0 op) ∧ (famOf op = 0x1 → decodeWord op = .jp (nnnOf op)) ∧
    (famOf op = 0x2 → decodeWord op = .call (nnnOf op)) ∧ (famOf op = 0x3 → decodeWord op = .seI (xOf op) (kkOf op)) ∧
    (famOf op = 0x4 → decodeWord op = .sneI (xOf op) (kkOf op)) ∧ (famOf op = 0x5 → decodeWord op = .seR (xOf op) (yOf op)) ∧
    (famOf op = 0x6 → decodeWord op = .ldI (xOf op) (kkOf op)) ∧ (famOf op = 0x7 → decodeWord op = .addI (xOf op) (kkOf op)) ∧
    (famOf op = 0x8 → decodeWord op = decode8 op) ∧ (famOf op = 0x9 → decodeWord op = .sneR (xOf op) (yOf op)) ∧
    (famOf op = 0xA → decodeWord op = .ldIndex (nnnOf op)) ∧ (famOf op = 0xB → decodeWord op = .jpV0 (nnnOf op)) ∧
    (famOf op = 0xC → decodeWord op = .rnd (xOf op) (kkOf op)) ∧ (famOf op = 0xD → decodeWord op = .drw (xOf op) (yOf op) (nOf op)) ∧
    (famOf op = 0xE → decodeWord op = decodeE op) ∧ (famOf op = 0xF → decodeWord op = decodeF op) := by
  refine ⟨?_, ?_, ?_, ?_, ?_, ?_, ?_, ?_, ?_, ?_, ?_, ?_, ?_, ?_, ?_, ?_⟩ <;> intro h <;> unfold decodeWord <;> rw [h] <;> rfl

/-- Level 2 of family 0x0 on an unassigned code (R78). -/
theorem decode0_unassigned {op : Word} (h : nOf op ∉ assigned0) : decode0 op = .nop0 (nnnOf op) := by
  simp only [assigned0, List.mem_cons, List.not_mem_nil, or_false, not_or] at h
  unfold decode0
  split <;> simp_all

/-- Level 2 of family 0x8 on an unassigned code (R78). -/
theorem decode8_unassigned {op : Word} (h : nOf op ∉ assigned8) : decode8 op = .nop8 (nnnOf op) := by
  simp only [assigned8, List.mem_cons, List.not_mem_nil, or_false, not_or] at h
  unfold decode8
  split <;> simp_all

/-- Level 2 of family 0xE on an unassigned code (R78). -/
theorem decodeE_unassigned {op : Word} (h : nOf op ∉ assignedE) : decodeE op = .nopE (nnnOf op) := by
  simp only [assignedE, List.mem_cons, List.not_mem_nil, or_false, not_or] at h
  unfold decodeE
  split <;> simp_all

/-- Level 2 of family 0xF on an unassigned code (R78). -/
theorem decodeF_unassigned {op : Word} (h : kkOf op ∉ assignedF) : decodeF op = .nopF (nnnOf op) := by
  simp only [assignedF, List.mem_cons, List.not_mem_nil, or_false, not_or] at h
  unfold decodeF
  split <;> simp_all

/-- Level 2 of family 0x8 on an assigned code. -/
theorem decode8_assigned (op : Word) :
    (nOf op = 0x0 → decode8 op = .ldR (xOf op) (yOf op)) ∧ (nOf op = 0x1 → decode8 op = .orR (xOf op) (yOf op)) ∧
    (nOf op = 0x2 → decode8 op = .andR (xOf op) (yOf op)) ∧ (nOf op = 0x3 → decode8 op = .xorR (xOf op) (yOf op)) ∧
    (nOf op = 0x4 → decode8 op = .addR (xOf op) (yOf op)) ∧ (nOf op = 0x5 → decode8 op = .sub (xOf op) (yOf op)) ∧
    (nOf op = 0x6 → decode8 op = .shr (xOf op) (yOf op)) ∧ (nOf op = 0x7 → decode8 op = .subn (xOf op) (yOf op)) ∧
    (nOf op = 0xE → decode8 op = .shl (xOf op) (yOf op)) := by
  refine ⟨?_, ?_, ?_, ?_, ?_, ?_, ?_, ?_, ?_⟩ <;> intro h <;> unfold decode8 <;> rw [h] <;> rfl

/-- Level 2 of families 0x0 and 0xE on an assigned code. -/
theorem decode0E_assigned (op : Word) :
    (nOf op = 0x0 → decode0 op = .cls) ∧ (nOf op = 0xE → decode0 op = .ret) ∧
    (nOf op = 0xE → decodeE op = .skp (xOf op)) ∧ (nOf op = 0x1 → decodeE op = .sknp (xOf op)) := by
  refine ⟨?_, ?_, ?_, ?_⟩ <;> intro h <;> (first | unfold decode0 | unfold decodeE) <;> rw [h] <;> rfl

/-- Level 2 of family 0xF on an assigned code. -/
theorem decodeF_assigned (op : Word) :
    (kkOf op = 0x07 → decodeF op = .ldFromDT (xOf op)) ∧ (kkOf op = 0x0A → decodeF op = .ldKey (xOf op)) ∧
    (kkOf op = 0x15 → decodeF op = .ldDT (xOf op)) ∧ (kkOf op = 0x18 → decodeF op = .ldST (xOf op)) ∧
    (kkOf op = 0x1E → decodeF op = .addIndex (xOf op)) ∧ (kkOf op = 0x29 → decodeF op = .ldFont (xOf op)) ∧
    (kkOf op = 0x33 → decodeF op = .ldBcd (xOf op)) ∧ (kkOf op = 0x55 → decodeF op = .ldMem (xOf op)) ∧
    (kkOf op = 0x65 → decodeF op = .ldRegs (xOf op)) := by
  refine ⟨?_, ?_, ?_, ?_, ?_, ?_, ?_, ?_, ?_⟩ <;> intro h <;> unfold decodeF <;> rw [h] <;> rfl

/-- A nibble is one of sixteen. -/
theorem nibble_cases (n : Nibble) : n = 0x0 ∨ n = 0x1 ∨ n = 0x2 ∨ n = 0x3 ∨ n = 0x4 ∨ n = 0x5 ∨ n = 0x6 ∨ n = 0x7 ∨ n = 0x8 ∨
    n = 0x9 ∨ n = 0xA ∨ n = 0xB ∨ n = 0xC ∨ n = 0xD ∨ n = 0xE ∨ n = 0xF := by
  revert n; decide

end Sys2Proof
end

