-- ==== Sys2Proof/Laws/State.lean ====
section
/-! SUPPORT. One lemma per field per update of a state, and how the accessors see each update; no later proof unfolds a record update. -/

namespace Sys2Proof.Machine

variable (s : State)

/-! ### `setV` -/

@[simp] theorem State.setV_mem (x : Reg) (b : Byte) : (s.setV x b).mem = s.mem := rfl
@[simp] theorem State.setV_V (x : Reg) (b : Byte) : (s.setV x b).V = s.V.set x.toNat b x.isLt := rfl
@[simp] theorem State.setV_I (x : Reg) (b : Byte) : (s.setV x b).I = s.I := rfl
@[simp] theorem State.setV_pc (x : Reg) (b : Byte) : (s.setV x b).pc = s.pc := rfl
@[simp] theorem State.setV_stack (x : Reg) (b : Byte) : (s.setV x b).stack = s.stack := rfl
@[simp] theorem State.setV_sp (x : Reg) (b : Byte) : (s.setV x b).sp = s.sp := rfl
@[simp] theorem State.setV_DT (x : Reg) (b : Byte) : (s.setV x b).DT = s.DT := rfl
@[simp] theorem State.setV_ST (x : Reg) (b : Byte) : (s.setV x b).ST = s.ST := rfl
@[simp] theorem State.setV_fb (x : Reg) (b : Byte) : (s.setV x b).fb = s.fb := rfl
@[simp] theorem State.setV_font (x : Reg) (b : Byte) : (s.setV x b).font = s.font := rfl
@[simp] theorem State.setV_key (x : Reg) (b : Byte) : (s.setV x b).key = s.key := rfl
@[simp] theorem State.setV_rnd (x : Reg) (b : Byte) : (s.setV x b).rnd = s.rnd := rfl
@[simp] theorem State.setV_pending (x : Reg) (b : Byte) : (s.setV x b).pending = s.pending := rfl
@[simp] theorem State.setV_draws (x : Reg) (b : Byte) : (s.setV x b).draws = s.draws := rfl
@[simp] theorem State.setV_toneOn (x : Reg) (b : Byte) : (s.setV x b).toneOn = s.toneOn := rfl
@[simp] theorem State.setV_toneStop (x : Reg) (b : Byte) : (s.setV x b).toneStop = s.toneStop := rfl

/-! ### `jumpTo` -/

@[simp] theorem State.jumpTo_mem (p : Word) : (s.jumpTo p).mem = s.mem := rfl
@[simp] theorem State.jumpTo_V (p : Word) : (s.jumpTo p).V = s.V := rfl
@[simp] theorem State.jumpTo_I (p : Word) : (s.jumpTo p).I = s.I := rfl
@[simp] theorem State.jumpTo_pc (p : Word) : (s.jumpTo p).pc = p := rfl
@[simp] theorem State.jumpTo_stack (p : Word) : (s.jumpTo p).stack = s.stack := rfl
@[simp] theorem State.jumpTo_sp (p : Word) : (s.jumpTo p).sp = s.sp := rfl
@[simp] theorem State.jumpTo_DT (p : Word) : (s.jumpTo p).DT = s.DT := rfl
@[simp] theorem State.jumpTo_ST (p : Word) : (s.jumpTo p).ST = s.ST := rfl
@[simp] theorem State.jumpTo_fb (p : Word) : (s.jumpTo p).fb = s.fb := rfl
@[simp] theorem State.jumpTo_font (p : Word) : (s.jumpTo p).font = s.font := rfl
@[simp] theorem State.jumpTo_key (p : Word) : (s.jumpTo p).key = s.key := rfl
@[simp] theorem State.jumpTo_rnd (p : Word) : (s.jumpTo p).rnd = s.rnd := rfl
@[simp] theorem State.jumpTo_pending (p : Word) : (s.jumpTo p).pending = s.pending := rfl
@[simp] theorem State.jumpTo_draws (p : Word) : (s.jumpTo p).draws = s.draws := rfl
@[simp] theorem State.jumpTo_toneOn (p : Word) : (s.jumpTo p).toneOn = s.toneOn := rfl
@[simp] theorem State.jumpTo_toneStop (p : Word) : (s.jumpTo p).toneStop = s.toneStop := rfl

/-! ### `writeByte` -/

@[simp] theorem State.writeByte_mem (a : Nat) (v : Byte) : (s.writeByte a v).mem = if v = resetByte s.font a then cellErase s.mem a else cellInsert s.mem a v := rfl
@[simp] theorem State.writeByte_V (a : Nat) (v : Byte) : (s.writeByte a v).V = s.V := rfl
@[simp] theorem State.writeByte_I (a : Nat) (v : Byte) : (s.writeByte a v).I = s.I := rfl
@[simp] theorem State.writeByte_pc (a : Nat) (v : Byte) : (s.writeByte a v).pc = s.pc := rfl
@[simp] theorem State.writeByte_stack (a : Nat) (v : Byte) : (s.writeByte a v).stack = s.stack := rfl
@[simp] theorem State.writeByte_sp (a : Nat) (v : Byte) : (s.writeByte a v).sp = s.sp := rfl
@[simp] theorem State.writeByte_DT (a : Nat) (v : Byte) : (s.writeByte a v).DT = s.DT := rfl
@[simp] theorem State.writeByte_ST (a : Nat) (v : Byte) : (s.writeByte a v).ST = s.ST := rfl
@[simp] theorem State.writeByte_fb (a : Nat) (v : Byte) : (s.writeByte a v).fb = s.fb := rfl
@[simp] theorem State.writeByte_font (a : Nat) (v : Byte) : (s.writeByte a v).font = s.font := rfl
@[simp] theorem State.writeByte_key (a : Nat) (v : Byte) : (s.writeByte a v).key = s.key := rfl
@[simp] theorem State.writeByte_rnd (a : Nat) (v : Byte) : (s.writeByte a v).rnd = s.rnd := rfl
@[simp] theorem State.writeByte_pending (a : Nat) (v : Byte) : (s.writeByte a v).pending = s.pending := rfl
@[simp] theorem State.writeByte_draws (a : Nat) (v : Byte) : (s.writeByte a v).draws = s.draws := rfl
@[simp] theorem State.writeByte_toneOn (a : Nat) (v : Byte) : (s.writeByte a v).toneOn = s.toneOn := rfl
@[simp] theorem State.writeByte_toneStop (a : Nat) (v : Byte) : (s.writeByte a v).toneStop = s.toneStop := rfl

/-! ### `setFlag` -/

@[simp] theorem State.setFlag_mem (f : Bool) : (s.setFlag f).mem = s.mem := rfl
@[simp] theorem State.setFlag_I (f : Bool) : (s.setFlag f).I = s.I := rfl
@[simp] theorem State.setFlag_pc (f : Bool) : (s.setFlag f).pc = s.pc := rfl
@[simp] theorem State.setFlag_stack (f : Bool) : (s.setFlag f).stack = s.stack := rfl
@[simp] theorem State.setFlag_sp (f : Bool) : (s.setFlag f).sp = s.sp := rfl
@[simp] theorem State.setFlag_DT (f : Bool) : (s.setFlag f).DT = s.DT := rfl
@[simp] theorem State.setFlag_ST (f : Bool) : (s.setFlag f).ST = s.ST := rfl
@[simp] theorem State.setFlag_fb (f : Bool) : (s.setFlag f).fb = s.fb := rfl
@[simp] theorem State.setFlag_font (f : Bool) : (s.setFlag f).font = s.font := rfl
@[simp] theorem State.setFlag_key (f : Bool) : (s.setFlag f).key = s.key := rfl
@[simp] theorem State.setFlag_rnd (f : Bool) : (s.setFlag f).rnd = s.rnd := rfl
@[simp] theorem State.setFlag_pending (f : Bool) : (s.setFlag f).pending = s.pending := rfl
@[simp] theorem State.setFlag_draws (f : Bool) : (s.setFlag f).draws = s.draws := rfl
@[simp] theorem State.setFlag_toneOn (f : Bool) : (s.setFlag f).toneOn = s.toneOn := rfl
@[simp] theorem State.setFlag_toneStop (f : Bool) : (s.setFlag f).toneStop = s.toneStop := rfl

/-! ### `drawSprite` -/

@[simp] theorem State.drawSprite_mem (X Y n : Nat) : (s.drawSprite X Y n).mem = s.mem := rfl
@[simp] theorem State.drawSprite_I (X Y n : Nat) : (s.drawSprite X Y n).I = s.I := rfl
@[simp] theorem State.drawSprite_pc (X Y n : Nat) : (s.drawSprite X Y n).pc = s.pc := rfl
@[simp] theorem State.drawSprite_stack (X Y n : Nat) : (s.drawSprite X Y n).stack = s.stack := rfl
@[simp] theorem State.drawSprite_sp (X Y n : Nat) : (s.drawSprite X Y n).sp = s.sp := rfl
@[simp] theorem State.drawSprite_DT (X Y n : Nat) : (s.drawSprite X Y n).DT = s.DT := rfl
@[simp] theorem State.drawSprite_ST (X Y n : Nat) : (s.drawSprite X Y n).ST = s.ST := rfl
@[simp] theorem State.drawSprite_font (X Y n : Nat) : (s.drawSprite X Y n).font = s.font := rfl
@[simp] theorem State.drawSprite_key (X Y n : Nat) : (s.drawSprite X Y n).key = s.key := rfl
@[simp] theorem State.drawSprite_rnd (X Y n : Nat) : (s.drawSprite X Y n).rnd = s.rnd := rfl
@[simp] theorem State.drawSprite_pending (X Y n : Nat) : (s.drawSprite X Y n).pending = s.pending := rfl
@[simp] theorem State.drawSprite_draws (X Y n : Nat) : (s.drawSprite X Y n).draws = s.draws := rfl
@[simp] theorem State.drawSprite_toneOn (X Y n : Nat) : (s.drawSprite X Y n).toneOn = s.toneOn := rfl
@[simp] theorem State.drawSprite_toneStop (X Y n : Nat) : (s.drawSprite X Y n).toneStop = s.toneStop := rfl

/-! ### `advance` -/

@[simp] theorem State.advance_mem : (s.advance).mem = s.mem := rfl
@[simp] theorem State.advance_V : (s.advance).V = s.V := rfl
@[simp] theorem State.advance_I : (s.advance).I = s.I := rfl
@[simp] theorem State.advance_pc : (s.advance).pc = s.pc + 2 := rfl
@[simp] theorem State.advance_stack : (s.advance).stack = s.stack := rfl
@[simp] theorem State.advance_sp : (s.advance).sp = s.sp := rfl
@[simp] theorem State.advance_DT : (s.advance).DT = s.DT := rfl
@[simp] theorem State.advance_ST : (s.advance).ST = s.ST := rfl
@[simp] theorem State.advance_fb : (s.advance).fb = s.fb := rfl
@[simp] theorem State.advance_font : (s.advance).font = s.font := rfl
@[simp] theorem State.advance_key : (s.advance).key = s.key := rfl
@[simp] theorem State.advance_rnd : (s.advance).rnd = s.rnd := rfl
@[simp] theorem State.advance_pending : (s.advance).pending = s.pending := rfl
@[simp] theorem State.advance_draws : (s.advance).draws = s.draws := rfl
@[simp] theorem State.advance_toneOn : (s.advance).toneOn = s.toneOn := rfl
@[simp] theorem State.advance_toneStop : (s.advance).toneStop = s.toneStop := rfl

/-! ### `sample` -/

@[simp] theorem State.sample_mem : (s.sample).mem = s.mem := rfl
@[simp] theorem State.sample_V : (s.sample).V = s.V := rfl
@[simp] theorem State.sample_I : (s.sample).I = s.I := rfl
@[simp] theorem State.sample_pc : (s.sample).pc = s.pc := rfl
@[simp] theorem State.sample_stack : (s.sample).stack = s.stack := rfl
@[simp] theorem State.sample_sp : (s.sample).sp = s.sp := rfl
@[simp] theorem State.sample_DT : (s.sample).DT = s.DT := rfl
@[simp] theorem State.sample_ST : (s.sample).ST = s.ST := rfl
@[simp] theorem State.sample_fb : (s.sample).fb = s.fb := rfl
@[simp] theorem State.sample_font : (s.sample).font = s.font := rfl
@[simp] theorem State.sample_key : (s.sample).key = s.nextInput.keys := rfl
@[simp] theorem State.sample_rnd : (s.sample).rnd = s.nextInput.random := rfl
@[simp] theorem State.sample_pending : (s.sample).pending = s.pending.tail := rfl
@[simp] theorem State.sample_draws : (s.sample).draws = s.draws + 1 := rfl
@[simp] theorem State.sample_toneOn : (s.sample).toneOn = s.toneOn := rfl
@[simp] theorem State.sample_toneStop : (s.sample).toneStop = s.toneStop := rfl

/-! ### `tick` -/

@[simp] theorem State.tick_mem : (s.tick).mem = s.mem := rfl
@[simp] theorem State.tick_V : (s.tick).V = s.V := rfl
@[simp] theorem State.tick_I : (s.tick).I = s.I := rfl
@[simp] theorem State.tick_pc : (s.tick).pc = s.pc := rfl
@[simp] theorem State.tick_stack : (s.tick).stack = s.stack := rfl
@[simp] theorem State.tick_sp : (s.tick).sp = s.sp := rfl
@[simp] theorem State.tick_DT : (s.tick).DT = tickTimer s.DT := rfl
@[simp] theorem State.tick_ST : (s.tick).ST = tickTimer s.ST := rfl
@[simp] theorem State.tick_fb : (s.tick).fb = s.fb := rfl
@[simp] theorem State.tick_font : (s.tick).font = s.font := rfl
@[simp] theorem State.tick_key : (s.tick).key = s.key := rfl
@[simp] theorem State.tick_rnd : (s.tick).rnd = s.rnd := rfl
@[simp] theorem State.tick_pending : (s.tick).pending = s.pending := rfl
@[simp] theorem State.tick_draws : (s.tick).draws = s.draws := rfl
@[simp] theorem State.tick_toneOn : (s.tick).toneOn = decide (s.ST ≠ 0) := rfl
@[simp] theorem State.tick_toneStop : (s.tick).toneStop = decide (s.ST = 1) := rfl

/-! ### `skipIf`: only `pc` may change -/

@[simp] theorem State.skipIf_mem (c : Bool) : (s.skipIf c).mem = s.mem := by unfold State.skipIf; split <;> rfl
@[simp] theorem State.skipIf_V (c : Bool) : (s.skipIf c).V = s.V := by unfold State.skipIf; split <;> rfl
@[simp] theorem State.skipIf_I (c : Bool) : (s.skipIf c).I = s.I := by unfold State.skipIf; split <;> rfl
@[simp] theorem State.skipIf_stack (c : Bool) : (s.skipIf c).stack = s.stack := by unfold State.skipIf; split <;> rfl
@[simp] theorem State.skipIf_sp (c : Bool) : (s.skipIf c).sp = s.sp := by unfold State.skipIf; split <;> rfl
@[simp] theorem State.skipIf_DT (c : Bool) : (s.skipIf c).DT = s.DT := by unfold State.skipIf; split <;> rfl
@[simp] theorem State.skipIf_ST (c : Bool) : (s.skipIf c).ST = s.ST := by unfold State.skipIf; split <;> rfl
@[simp] theorem State.skipIf_fb (c : Bool) : (s.skipIf c).fb = s.fb := by unfold State.skipIf; split <;> rfl
@[simp] theorem State.skipIf_font (c : Bool) : (s.skipIf c).font = s.font := by unfold State.skipIf; split <;> rfl
@[simp] theorem State.skipIf_key (c : Bool) : (s.skipIf c).key = s.key := by unfold State.skipIf; split <;> rfl
@[simp] theorem State.skipIf_rnd (c : Bool) : (s.skipIf c).rnd = s.rnd := by unfold State.skipIf; split <;> rfl
@[simp] theorem State.skipIf_pending (c : Bool) : (s.skipIf c).pending = s.pending := by unfold State.skipIf; split <;> rfl
@[simp] theorem State.skipIf_draws (c : Bool) : (s.skipIf c).draws = s.draws := by unfold State.skipIf; split <;> rfl
@[simp] theorem State.skipIf_toneOn (c : Bool) : (s.skipIf c).toneOn = s.toneOn := by unfold State.skipIf; split <;> rfl
@[simp] theorem State.skipIf_toneStop (c : Bool) : (s.skipIf c).toneStop = s.toneStop := by unfold State.skipIf; split <;> rfl

@[simp] theorem State.skipIf_pc (c : Bool) : (s.skipIf c).pc = if c then s.pc + 2 else s.pc := by unfold State.skipIf; split <;> rfl

/-! ### The accessors: what each reads -/

theorem State.getV_congr {s t : State} (h : t.V = s.V) (r : Reg) : t.getV r = s.getV r := by unfold State.getV; simp only [h]

theorem State.readByte_congr {s t : State} (hm : t.mem = s.mem) (hf : t.font = s.font) (a : Nat) : t.readByte a = s.readByte a := by
  unfold State.readByte; rw [hm, hf]

theorem State.pixel_congr {s t : State} (h : t.fb = s.fb) (r c : Nat) : t.pixel r c = s.pixel r c := by
  unfold State.pixel; simp only [h]

theorem State.getV_setV (x r : Reg) (b : Byte) : (s.setV x b).getV r = if r = x then b else s.getV r := by
  unfold State.getV
  simp only [State.setV_V, Vector.getElem_set]
  by_cases h : r = x
  · simp [h]
  · rw [if_neg h, if_neg (fun e => h (BitVec.eq_of_toNat_eq e.symm))]

@[simp] theorem State.getV_setV_self (x : Reg) (b : Byte) : (s.setV x b).getV x = b := by simp [State.getV_setV]

theorem State.getV_setV_ne {x r : Reg} (h : r ≠ x) (b : Byte) : (s.setV x b).getV r = s.getV r := by simp [State.getV_setV, h]

@[simp] theorem State.getV_jumpTo (p : Word) (r : Reg) : (s.jumpTo p).getV r = s.getV r := rfl
@[simp] theorem State.getV_writeByte (a : Nat) (v : Byte) (r : Reg) : (s.writeByte a v).getV r = s.getV r := rfl
@[simp] theorem State.getV_advance (r : Reg) : s.advance.getV r = s.getV r := rfl
@[simp] theorem State.getV_sample (r : Reg) : s.sample.getV r = s.getV r := rfl
@[simp] theorem State.getV_tick (r : Reg) : s.tick.getV r = s.getV r := rfl
@[simp] theorem State.getV_skipIf (c : Bool) (r : Reg) : (s.skipIf c).getV r = s.getV r := State.getV_congr (s.skipIf_V c) r

@[simp] theorem State.readByte_setV (x : Reg) (b : Byte) (a : Nat) : (s.setV x b).readByte a = s.readByte a := rfl
@[simp] theorem State.readByte_setFlag (f : Bool) (a : Nat) : (s.setFlag f).readByte a = s.readByte a := rfl
@[simp] theorem State.readByte_drawSprite (X Y n a : Nat) : (s.drawSprite X Y n).readByte a = s.readByte a := rfl
@[simp] theorem State.readByte_jumpTo (p : Word) (a : Nat) : (s.jumpTo p).readByte a = s.readByte a := rfl
@[simp] theorem State.readByte_advance (a : Nat) : s.advance.readByte a = s.readByte a := rfl
@[simp] theorem State.readByte_sample (a : Nat) : s.sample.readByte a = s.readByte a := rfl
@[simp] theorem State.readByte_tick (a : Nat) : s.tick.readByte a = s.readByte a := rfl
@[simp] theorem State.readByte_skipIf (c : Bool) (a : Nat) : (s.skipIf c).readByte a = s.readByte a :=
  State.readByte_congr (s.skipIf_mem c) (s.skipIf_font c) a

@[simp] theorem State.pixel_setV (x : Reg) (b : Byte) (r c : Nat) : (s.setV x b).pixel r c = s.pixel r c := rfl
@[simp] theorem State.pixel_tick (r c : Nat) : s.tick.pixel r c = s.pixel r c := rfl
@[simp] theorem State.pixel_advance (r c : Nat) : s.advance.pixel r c = s.pixel r c := rfl
@[simp] theorem State.pixel_sample (r c : Nat) : s.sample.pixel r c = s.pixel r c := rfl

/-- Two states with the same sixteen registers have the same register file. -/
theorem State.V_ext {s t : State} (h : ∀ r, t.getV r = s.getV r) : t.V = s.V := by
  apply Vector.ext
  intro k hk
  have := h (BitVec.ofNat 4 k)
  simpa [State.getV, Nat.mod_eq_of_lt hk] using this

/-! ### Timers -/

/-- A tick lowers a nonzero timer by 1 and leaves 0 at 0 (R28, R29). -/
theorem tickTimer_toNat (t : Byte) : (tickTimer t).toNat = t.toNat - 1 := by
  unfold tickTimer
  split
  · next h => simp [h]
  · next h =>
    have : t.toNat ≠ 0 := fun e => h (BitVec.eq_of_toNat_eq e)
    have := t.isLt
    have one : (1 : Byte).toNat = 1 := rfl
    rw [BitVec.toNat_sub, one]
    omega

end Sys2Proof.Machine
end

