-- ==== Sys2Proof/Laws/Memory.lean ====
section
/-! SUPPORT. Memory: what a read after a write gives, and that every memory operation keeps the canonical form. -/

namespace Sys2Proof.Machine

/-! ### The cells -/

theorem cellLookup_erase (m : List Host.Cell) (a b : Nat) :
    cellLookup (cellErase m a) b = if b = a then none else cellLookup m b := by
  induction m with
  | nil => simp [cellErase, cellLookup]
  | cons c m ih =>
    obtain ⟨k, w⟩ := c
    by_cases hk : k = a
    · subst hk
      simp only [cellErase, if_true, ih, cellLookup]
      by_cases hb : b = k
      · simp [hb]
      · simp [hb, Ne.symm hb]
    · simp only [cellErase, if_neg hk, cellLookup, ih]
      by_cases hkb : k = b
      · subst hkb; simp [hk]
      · simp [hkb]

theorem cellLookup_insert (m : List Host.Cell) (a b : Nat) (v : Byte) :
    cellLookup (cellInsert m a v) b = if b = a then some v else cellLookup m b := by
  induction m with
  | nil => by_cases h : b = a <;> simp [cellInsert, cellLookup, h, Ne.symm]
  | cons c m ih =>
    obtain ⟨k, w⟩ := c
    simp only [cellInsert]
    split
    · by_cases h : b = a <;> simp [cellLookup, h, Ne.symm]
    · split
      · next h => subst h; by_cases h : b = a <;> simp [cellLookup, h, Ne.symm]
      · simp only [cellLookup, ih]
        by_cases hkb : k = b
        · subst hkb; next h => simp [Ne.symm h]
        · simp [hkb]

theorem mem_cellErase {m : List Host.Cell} {a : Nat} {c : Host.Cell} (h : c ∈ cellErase m a) : c ∈ m ∧ c.1 ≠ a := by
  induction m with
  | nil => simp [cellErase] at h
  | cons d m ih =>
    obtain ⟨k, w⟩ := d
    simp only [cellErase] at h
    split at h
    · exact ⟨List.mem_cons_of_mem _ (ih h).1, (ih h).2⟩
    · next hk =>
      rcases List.mem_cons.1 h with rfl | h
      · exact ⟨by simp, hk⟩
      · exact ⟨List.mem_cons_of_mem _ (ih h).1, (ih h).2⟩

theorem mem_cellInsert {m : List Host.Cell} {a : Nat} {v : Byte} {c : Host.Cell} (h : c ∈ cellInsert m a v) : c = (a, v) ∨ c ∈ m := by
  induction m with
  | nil => simpa [cellInsert] using h
  | cons d m ih =>
    obtain ⟨k, w⟩ := d
    simp only [cellInsert] at h
    split at h
    · simpa using h
    · split at h
      · rcases List.mem_cons.1 h with h | h
        · exact .inl h
        · exact .inr (List.mem_cons_of_mem _ h)
      · rcases List.mem_cons.1 h with rfl | h
        · exact .inr (by simp)
        · exact (ih h).imp id (List.mem_cons_of_mem _)

/-- Addresses strictly rising. -/
abbrev rising (m : List Host.Cell) : Prop := (m.map Prod.fst).Pairwise (· < ·)

theorem rising_cellErase {m : List Host.Cell} (h : rising m) (a : Nat) : rising (cellErase m a) := by
  induction m with
  | nil => exact h
  | cons d m ih =>
    obtain ⟨k, w⟩ := d
    simp only [rising, List.map_cons, List.pairwise_cons] at h
    simp only [cellErase]
    split
    · exact ih h.2
    · simp only [rising, List.map_cons, List.pairwise_cons]
      refine ⟨fun x hx => ?_, ih h.2⟩
      obtain ⟨c, hc, rfl⟩ := List.mem_map.1 hx
      exact h.1 _ (List.mem_map_of_mem (mem_cellErase hc).1)

theorem rising_cellInsert {m : List Host.Cell} (h : rising m) (a : Nat) (v : Byte) : rising (cellInsert m a v) := by
  induction m with
  | nil => simp [rising, cellInsert]
  | cons d m ih =>
    obtain ⟨k, w⟩ := d
    simp only [rising, List.map_cons, List.pairwise_cons] at h
    simp only [cellInsert]
    split
    · next hak =>
      simp only [rising, List.map_cons, List.pairwise_cons, List.mem_cons, forall_eq_or_imp]
      exact ⟨⟨hak, fun x hx => lt_trans hak (h.1 x hx)⟩, h.1, h.2⟩
    · split
      · next _ hak =>
        subst hak
        simpa only [rising, List.map_cons, List.pairwise_cons] using h
      · next hlt hne =>
        simp only [rising, List.map_cons, List.pairwise_cons]
        refine ⟨fun x hx => ?_, ih h.2⟩
        obtain ⟨c, hc, rfl⟩ := List.mem_map.1 hx
        rcases mem_cellInsert hc with rfl | hc
        · show k < a; omega
        · exact h.1 _ (List.mem_map_of_mem hc)

/-! ### One byte -/

/-- A read after a write: the byte written at its address, every other byte as before. -/
theorem State.readByte_writeByte (s : State) (a b : Nat) (v : Byte) :
    (s.writeByte a v).readByte b = if b = a then v else s.readByte b := by
  simp only [State.readByte, State.writeByte_mem, State.writeByte_font]
  split
  · next hv =>
    rw [cellLookup_erase]
    by_cases hb : b = a
    · simp [hb, hv]
    · simp [hb]
  · rw [cellLookup_insert]
    by_cases hb : b = a
    · simp [hb]
    · simp [hb]

/-- A write below 4096 keeps the canonical form. -/
theorem State.memWf_writeByte {s : State} (h : s.memWf) {a : Nat} (ha : a < Config.memSize) (v : Byte) : (s.writeByte a v).memWf := by
  obtain ⟨hr, hc⟩ := h
  simp only [State.memWf, Memory.wf, State.writeByte_mem, State.writeByte_font]
  split
  · exact ⟨rising_cellErase hr a, fun c hm => hc c (mem_cellErase hm).1⟩
  · next hv =>
    refine ⟨rising_cellInsert hr a v, fun c hm => ?_⟩
    rcases mem_cellInsert hm with rfl | hm
    · exact ⟨ha, hv⟩
    · exact hc c hm

/-- The canonical form is about memory and the font alone. -/
theorem State.memWf_congr {s t : State} (hm : t.mem = s.mem) (hf : t.font = s.font) (h : s.memWf) : t.memWf := by
  unfold State.memWf; rw [hm, hf]; exact h

/-- Memory with nothing listed has the canonical form; so has the memory of the reset state. -/
theorem State.memWf_of_nil {s : State} (h : s.mem = []) : s.memWf := by
  unfold State.memWf
  rw [h]
  exact ⟨List.Pairwise.nil, fun c hc => by cases hc⟩

theorem State.memWf_reset : State.reset.memWf := State.memWf_of_nil rfl

/-! ### Blocks of bytes -/

theorem storeBytes_getV (bs : List Byte) : ∀ (a : Nat) (s : State) (r : Reg), (storeBytes a bs s).getV r = s.getV r := by
  induction bs with
  | nil => intros; rfl
  | cons b bs ih => intro a s r; simp only [storeBytes, ih, State.getV_writeByte]

/-- A block store touches nothing but memory. -/
theorem storeBytes_fields (bs : List Byte) : ∀ (a : Nat) (s : State), storeBytes a bs s = { s with mem := (storeBytes a bs s).mem } := by
  induction bs with
  | nil => intros; rfl
  | cons b bs ih =>
    intro a s
    simp only [storeBytes]
    rw [ih]
    rfl

/-- What a read after a block store gives. -/
theorem readByte_storeBytes (bs : List Byte) : ∀ (a : Nat) (s : State) (b : Nat),
    (storeBytes a bs s).readByte b = if h : a ≤ b ∧ b < a + bs.length then bs[b - a]'(by omega) else s.readByte b := by
  induction bs with
  | nil =>
    intro a s b
    rw [dif_neg (by simp only [List.length_nil]; omega)]
    rfl
  | cons c bs ih =>
    intro a s b
    simp only [storeBytes, ih, State.readByte_writeByte, List.length_cons]
    by_cases hb : b = a
    · subst hb
      rw [dif_neg (by omega), dif_pos (by omega)]
      simp
    · by_cases hin : a ≤ b ∧ b < a + (bs.length + 1)
      · rw [dif_pos (by omega), dif_pos hin]
        obtain ⟨d, rfl⟩ : ∃ d, b = a + 1 + d := ⟨b - (a + 1), by omega⟩
        have e1 : a + 1 + d - (a + 1) = d := by omega
        have e2 : a + 1 + d - a = d + 1 := by omega
        simp only [e1, e2, List.getElem_cons_succ]
      · rw [dif_neg (by omega), dif_neg hin, if_neg hb]

theorem readByte_storeBytes_at (bs : List Byte) (a : Nat) (s : State) (k : Nat) (h : k < bs.length) :
    (storeBytes a bs s).readByte (a + k) = bs[k] := by
  rw [readByte_storeBytes, dif_pos ⟨by omega, by omega⟩]
  congr 1
  omega

theorem sameMemOutside_storeBytes (bs : List Byte) (a : Nat) (s : State) : sameMemOutside a bs.length s (storeBytes a bs s) := by
  intro b hb
  rw [readByte_storeBytes, dif_neg (by omega)]

/-- A block store inside memory keeps the canonical form. -/
theorem memWf_storeBytes (bs : List Byte) : ∀ {a : Nat} {s : State}, s.memWf → a + bs.length ≤ Config.memSize → (storeBytes a bs s).memWf := by
  induction bs with
  | nil => intro a s h _; exact h
  | cons b bs ih =>
    intro a s h ha
    simp only [List.length_cons] at ha
    exact ih (State.memWf_writeByte h (by omega) b) (by omega)

/-- A block store changes memory in its range only. -/
theorem onlyMem_storeBytes (bs : List Byte) (a : Nat) (s : State) : onlyMem a bs.length s (storeBytes a bs s) := by
  refine ⟨fun r _ => storeBytes_getV bs a s r, ?_⟩
  have h := storeBytes_fields bs a s
  refine ⟨?_, ?_, ⟨?_, ?_⟩, ⟨?_, ?_⟩, ?_, sameMemOutside_storeBytes bs a s, ?_, ?_, ?_, ?_, ?_, ?_, ?_⟩ <;> rw [h]

/-! ### Reset contents -/

/-- A block of bytes stored in two machines with the same core state and font leaves the same core state. -/
theorem storeBytes_core_congr (bs : List Byte) : ∀ (a : Nat) {s t : State}, s.toCoreState = t.toCoreState → s.font = t.font →
    (storeBytes a bs s).toCoreState = (storeBytes a bs t).toCoreState := by
  induction bs with
  | nil => intro a s t hc _; exact hc
  | cons v bs ih =>
    intro a s t hc hf
    refine ih (a + 1) ?_ hf
    simp only [State.writeByte, hc, hf]


theorem resetByte_font (font : Font) (k : Nat) (h : k < Config.fontLen) : resetByte font (Config.fontBase + k) = font[k] := by
  unfold resetByte
  rw [dif_pos ⟨by omega, by omega⟩]
  congr 1
  omega

theorem resetByte_zero (font : Font) (a : Nat) (h : a < Config.fontBase ∨ Config.fontBase + Config.fontLen ≤ a) : resetByte font a = 0 := by
  unfold resetByte
  rw [dif_neg (by omega)]

end Sys2Proof.Machine
end

