-- ==== Sys2Proof/Laws/Ops.lean ====
section
/-! SUPPORT. What each shared operation can do, said once: registers and flags, range-checked accesses, the return stack, block loads,
the keypad scan, the framebuffer. The meanings' lemmas cite these. -/

namespace Sys2Proof.Machine

/-! ### Frames of the plain updates -/

theorem sameBoundary_refl (s : State) : sameBoundary s s := ⟨rfl, rfl, rfl, rfl, rfl, rfl, rfl⟩

theorem onlyRegs_setV (s : State) (x : Reg) (b : Byte) : onlyRegs [x] s (s.setV x b) :=
  ⟨fun _ hr => s.getV_setV_ne (by simpa using hr) b, rfl, rfl, ⟨rfl, rfl⟩, ⟨rfl, rfl⟩, rfl, fun _ => rfl, sameBoundary_refl s⟩

theorem onlyPc_jumpTo (s : State) (p : Word) : onlyPc s (s.jumpTo p) :=
  ⟨fun _ _ => rfl, rfl, ⟨rfl, rfl⟩, ⟨rfl, rfl⟩, rfl, fun _ => rfl, sameBoundary_refl s⟩

theorem onlyPc_refl (s : State) : onlyPc s s :=
  ⟨fun _ _ => rfl, rfl, ⟨rfl, rfl⟩, ⟨rfl, rfl⟩, rfl, fun _ => rfl, sameBoundary_refl s⟩

theorem onlyPc_skipIf (s : State) (c : Bool) : onlyPc s (s.skipIf c) := by
  cases c
  · exact onlyPc_refl s
  · exact onlyPc_jumpTo s _

theorem onlyIndex_set (s : State) (i : Word) : onlyIndex s { s with I := i } :=
  ⟨fun _ _ => rfl, rfl, ⟨rfl, rfl⟩, ⟨rfl, rfl⟩, rfl, fun _ => rfl, sameBoundary_refl s⟩

/-! ### Flags and the two write orders -/

theorem flagByte_toNat (f : Bool) : (flagByte f).toNat = if f = true then 1 else 0 := by cases f <;> rfl

theorem getV_resultThenFlag (s : State) (x r : Reg) (res : Byte) (f : Bool) :
    (resultThenFlag s x res f).getV r = if r = flagReg then flagByte f else if r = x then res else s.getV r := by
  simp only [resultThenFlag, State.setFlag, State.getV_setV]

theorem getV_flagThenResult (s : State) (x r : Reg) (res : Byte) (f : Bool) :
    (flagThenResult s x res f).getV r = if r = x then res else if r = flagReg then flagByte f else s.getV r := by
  simp only [flagThenResult, State.setFlag, State.getV_setV]

theorem onlyRegs_resultThenFlag (s : State) (x : Reg) (res : Byte) (f : Bool) : onlyRegs [x, flagReg] s (resultThenFlag s x res f) := by
  refine ⟨fun r hr => ?_, rfl, rfl, ⟨rfl, rfl⟩, ⟨rfl, rfl⟩, rfl, fun _ => rfl, sameBoundary_refl s⟩
  simp only [List.mem_cons, List.not_mem_nil, or_false, not_or] at hr
  rw [getV_resultThenFlag, if_neg hr.2, if_neg hr.1]

theorem onlyRegs_flagThenResult (s : State) (x : Reg) (res : Byte) (f : Bool) : onlyRegs [x, flagReg] s (flagThenResult s x res f) := by
  refine ⟨fun r hr => ?_, rfl, rfl, ⟨rfl, rfl⟩, ⟨rfl, rfl⟩, rfl, fun _ => rfl, sameBoundary_refl s⟩
  simp only [List.mem_cons, List.not_mem_nil, or_false, not_or] at hr
  rw [getV_flagThenResult, if_neg hr.1, if_neg hr.2]

@[simp] theorem flagReg_eq : flagReg = 15 := rfl

theorem flagByte_eq_one (f : Bool) : flagByte f = 1 ↔ f = true := by cases f <;> simp [flagByte]

theorem flagByte_lowBit (a : Byte) : (flagByte (lowBit a)).toNat = a.toNat % 2 := by revert a; decide

theorem flagByte_highBit (a : Byte) : (flagByte (highBit a)).toNat = a.toNat / 128 := by revert a; decide

/-! ### Arithmetic of the operand forms -/

theorem zextAddr_toNat (nnn : Addr) : (zextAddr nnn).toNat = nnn.toNat := by
  have := nnn.isLt
  simp only [zextAddr, BitVec.toNat_setWidth]
  omega

theorem zextByte_toNat (b : Byte) : (zextByte b).toNat = b.toNat := by
  have := b.isLt
  simp only [zextByte, BitVec.toNat_setWidth]
  omega

/-- A skip or an advance in numbers. -/
theorem add_two_toNat (p : Word) : (p + 2).toNat = (p.toNat + 2) % 65536 := by rw [BitVec.toNat_add]; rfl

/-- The glyph address never wraps (R132). -/
theorem glyphAddr_toNat (a : Byte) : (glyphAddr a).toNat = 0x050 + 5 * a.toNat := by
  have := a.isLt
  have five : (5 : Word).toNat = 5 := rfl
  simp only [glyphAddr, zextByte, Config.fontBase, BitVec.toNat_add, BitVec.toNat_mul, BitVec.toNat_setWidth, BitVec.toNat_ofNat, five]
  omega

/-- A difference of bytes is the difference modulo 256. -/
theorem sub_toNat_int (a b : Byte) : (((a - b).toNat : Nat) : Int) = ((a.toNat : Int) - b.toNat) % 256 := by
  have := a.isLt
  have := b.isLt
  rw [BitVec.toNat_sub]
  omega

theorem byte_ne_zero (b : Byte) : b ≠ 0 ↔ 0 < b.toNat := by
  constructor
  · intro h; exact Nat.pos_of_ne_zero fun h' => h (BitVec.eq_of_toNat_eq (by simpa using h'))
  · rintro h rfl; simp at h

theorem byte_eq_one (b : Byte) : b = 1 ↔ b.toNat = 1 := by
  constructor
  · rintro rfl; rfl
  · intro h; exact BitVec.eq_of_toNat_eq (by simpa using h)

/-! ### Range-checked accesses (R55) -/

theorem rangeFault_none {s : State} {len : Nat} (h : len = 0 ∨ s.I.toNat + len ≤ 4096) : s.rangeFault len = none := by
  unfold State.rangeFault
  rw [if_neg]
  simp only [Config.memSize]
  omega

theorem rangeFault_some {s : State} {len : Nat} (h0 : len ≠ 0) (h : 4096 < s.I.toNat + len) :
    s.rangeFault len = some (.dataRange (max s.I.toNat 4096)) := by
  unfold State.rangeFault
  rw [if_pos]
  simp only [Config.memSize]
  omega

theorem accessing_ok {s : State} {len : Nat} (t : State) (h : len = 0 ∨ s.I.toNat + len ≤ 4096) : accessing s len t = .next t := by
  unfold accessing
  rw [rangeFault_none h]

theorem accessing_bad {s : State} {len : Nat} (t : State) (h0 : len ≠ 0) (h : 4096 < s.I.toNat + len) :
    accessing s len t = .fault (.dataRange (max s.I.toNat 4096)) := by
  unfold accessing
  rw [rangeFault_some h0 h]
  rfl

/-- What a range-checked access can do. -/
theorem accessing_cases (s : State) (len : Nat) (t : State) :
    (accessing s len t = .next t ∧ (len = 0 ∨ s.I.toNat + len ≤ 4096)) ∨
    (accessing s len t = .fault (.dataRange (max s.I.toNat 4096)) ∧ len ≠ 0 ∧ 4096 < s.I.toNat + len) := by
  by_cases h : len = 0 ∨ s.I.toNat + len ≤ 4096
  · exact .inl ⟨accessing_ok t h, h⟩
  · exact .inr ⟨accessing_bad t (by omega) (by omega), by omega, by omega⟩

theorem accessing_next {s u : State} {len : Nat} {t : State} (h : accessing s len t = .next u) :
    u = t ∧ (len = 0 ∨ s.I.toNat + len ≤ 4096) := by
  rcases accessing_cases s len t with ⟨e, hr⟩ | ⟨e, _⟩ <;> rw [e] at h
  · injection h with h; exact ⟨h.symm, hr⟩
  · cases h

/-! ### The return stack (R101, R103) -/

theorem pushAndJump_ok {s : State} (h : s.sp.val < Config.stackDepth) (p : Word) :
    pushAndJump s p = .next { s with stack := s.stack.set s.sp.val s.pc h, sp := ⟨s.sp.val + 1, Nat.succ_lt_succ h⟩, pc := p } := by
  unfold pushAndJump; rw [dif_pos h]

theorem pushAndJump_full {s : State} (h : ¬ s.sp.val < Config.stackDepth) (p : Word) : pushAndJump s p = .fault .stackOverflow := by
  unfold pushAndJump; rw [dif_neg h]; rfl

theorem popReturn_empty {s : State} (h : s.sp.val = 0) : popReturn s = .fault .stackUnderflow := by
  unfold popReturn; rw [dif_pos h]; rfl

theorem popReturn_ok {s : State} (h : s.sp.val ≠ 0) (lt : s.sp.val - 1 < Config.stackDepth) :
    popReturn s = .next { s with sp := ⟨s.sp.val - 1, Nat.lt_succ_of_lt lt⟩, pc := s.stack[s.sp.val - 1] } := by
  unfold popReturn; rw [dif_neg h]

theorem sp_pred_lt (s : State) : s.sp.val - 1 < Config.stackDepth := by
  have := s.sp.isLt
  simp only [Config.stackDepth] at this ⊢
  omega

/-! ### Block moves of registers (R134, R135) -/

theorem regBytes_length (s : State) (n : Nat) : (s.regBytes n).length = n := by simp [State.regBytes]

theorem regBytes_getElem (s : State) (n k : Nat) (h : k < (s.regBytes n).length) : (s.regBytes n)[k] = s.getV (BitVec.ofNat 4 k) := by
  simp [State.regBytes]

theorem loadRegs_fields (n : Nat) (s : State) : loadRegs n s = { s with V := (loadRegs n s).V } := by
  induction n with
  | zero => rfl
  | succ n ih =>
    simp only [loadRegs]
    generalize hb : (loadRegs n s).readByte _ = b
    rw [ih]
    rfl

theorem readByte_loadRegs (n : Nat) (s : State) (a : Nat) : (loadRegs n s).readByte a = s.readByte a := by
  rw [loadRegs_fields]; rfl

theorem dataAddr_loadRegs (n : Nat) (s : State) (k : Nat) : (loadRegs n s).dataAddr k = s.dataAddr k := by
  rw [loadRegs_fields]; rfl

/-- What a block load leaves in each register. -/
theorem getV_loadRegs (n : Nat) (hn : n ≤ 16) (s : State) (r : Reg) :
    (loadRegs n s).getV r = if r.toNat < n then s.readByte (s.I.toNat + r.toNat) else s.getV r := by
  induction n with
  | zero => simp [loadRegs]
  | succ n ih =>
    simp only [loadRegs, State.getV_setV, readByte_loadRegs, dataAddr_loadRegs, ih (by omega)]
    have e : (BitVec.ofNat 4 n).toNat = n := by simp only [BitVec.toNat_ofNat]; omega
    by_cases h : r = BitVec.ofNat 4 n
    · subst h
      rw [if_pos rfl, if_pos (by omega), e]
      rfl
    · have : r.toNat ≠ n := fun h' => h (BitVec.eq_of_toNat_eq (by rw [e, h']))
      rw [if_neg h]
      by_cases h' : r.toNat < n
      · rw [if_pos h', if_pos (by omega)]
      · rw [if_neg h', if_neg (by omega)]

theorem mem_regsUpTo {x r : Reg} : r ∈ regsUpTo x ↔ r.toNat ≤ x.toNat := by
  unfold regsUpTo
  simp only [List.mem_map, List.mem_range]
  constructor
  · rintro ⟨k, hk, rfl⟩
    have := x.isLt
    simp only [BitVec.toNat_ofNat]
    omega
  · intro h
    exact ⟨r.toNat, by omega, by simp⟩

theorem onlyRegs_loadRegs (x : Reg) (s : State) : onlyRegs (regsUpTo x) s (loadRegs (x.toNat + 1) s) := by
  have hx := x.isLt
  refine ⟨fun r hr => ?_, ?_⟩
  · rw [mem_regsUpTo] at hr
    rw [getV_loadRegs _ (by omega), if_neg (by omega)]
  · refine ⟨?_, ?_, ⟨?_, ?_⟩, ⟨?_, ?_⟩, ?_, fun a => readByte_loadRegs _ _ a, ?_, ?_, ?_, ?_, ?_, ?_, ?_⟩ <;> rw [loadRegs_fields]

/-! ### The keypad scan (R152) -/

theorem lowestKey_none {s : State} (h : ∀ k < 16, s.key.getLsbD k = false) : s.lowestKey = none := by
  unfold State.lowestKey
  rw [Option.map_eq_none_iff, List.find?_eq_none]
  intro k hk
  simp only [List.mem_range] at hk
  simp [State.keyDown, h k hk]

theorem lowestKey_some {s : State} {k : Nat} (hk : k < 16) (hd : s.key.getLsbD k = true) (hm : ∀ j < k, s.key.getLsbD j = false) :
    s.lowestKey = some (BitVec.ofNat 8 k) := by
  unfold State.lowestKey
  have : (List.range 16).find? s.keyDown = some k := by
    rw [List.find?_range_eq_some]
    exact ⟨hd, List.mem_range.2 hk, fun j hj => by simp [State.keyDown, hm j hj]⟩
  rw [this]
  rfl

/-- What the scan can give: no key and none is down, or the lowest that is down. -/
theorem lowestKey_cases (s : State) :
    (s.lowestKey = none ∧ ∀ k < 16, s.key.getLsbD k = false) ∨
    ∃ k < 16, s.lowestKey = some (BitVec.ofNat 8 k) ∧ s.key.getLsbD k = true ∧ ∀ j < k, s.key.getLsbD j = false := by
  by_cases h : ∀ k < 16, s.key.getLsbD k = false
  · exact .inl ⟨lowestKey_none h, h⟩
  · have h' : ∃ k, k < 16 ∧ s.key.getLsbD k = true := by
      by_contra hc
      exact h fun k hk => by
        cases hb : s.key.getLsbD k
        · rfl
        · exact absurd ⟨k, hk, hb⟩ hc
    classical
    have hs := Nat.find_spec h'
    have hmin : ∀ j < Nat.find h', s.key.getLsbD j = false := fun j hj => by
      have := Nat.find_min h' hj
      cases hb : s.key.getLsbD j
      · rfl
      · exact absurd ⟨by omega, hb⟩ this
    exact .inr ⟨Nat.find h', hs.1, lowestKey_some hs.1 hs.2 hmin, hs.2, hmin⟩

/-! ### The framebuffer (R140 to R143) -/

theorem pixel_fbOf {s : State} {f : Nat → Nat → Bool} (h : s.fb = fbOf f) (r c : Nat) :
    s.pixel r c = if r < 32 ∧ c < 64 then f r c else false := by
  unfold State.pixel
  by_cases hrc : r < 32 ∧ c < 64
  · rw [dif_pos hrc, if_pos hrc]
    simp only [h, fbOf, Vector.getElem_ofFn]
  · rw [dif_neg hrc, if_neg hrc]

theorem pixel_outside (s : State) {r c : Nat} (h : ¬ (r < 32 ∧ c < 64)) : s.pixel r c = false := by
  unfold State.pixel
  rw [dif_neg h]

/-- Two framebuffers with the same pixels are the same. -/
theorem State.fb_ext {s t : State} (h : ∀ r c, t.pixel r c = s.pixel r c) : t.fb = s.fb := by
  apply Vector.ext
  intro r hr
  apply Vector.ext
  intro c hc
  have := h r c
  unfold State.pixel at this
  rwa [dif_pos ⟨hr, hc⟩, dif_pos ⟨hr, hc⟩] at this

/-- Where a sprite sets a bit: at the place of one of its rows and columns. -/
theorem spriteAt_iff (s : State) (X Y n r c : Nat) :
    s.spriteAt X Y n r c = true ↔ ∃ k j, k < n ∧ j < 8 ∧ r = Y + k ∧ c = X + j ∧ s.spriteBit k j = true := by
  unfold State.spriteAt
  simp only [Bool.and_eq_true, decide_eq_true_eq]
  constructor
  · rintro ⟨⟨h1, h2, h3, h4⟩, hb⟩
    exact ⟨r - Y, c - X, by omega, by omega, by omega, by omega, hb⟩
  · rintro ⟨k, j, hk, hj, rfl, rfl, hb⟩
    refine ⟨by omega, ?_⟩
    rwa [Nat.add_sub_cancel_left, Nat.add_sub_cancel_left]

/-- The sprite's own bit at the place of its row `k`, column `j`. -/
theorem spriteAt_of (s : State) {X Y n k j : Nat} (hk : k < n) (hj : j < 8) : s.spriteAt X Y n (Y + k) (X + j) = s.spriteBit k j := by
  unfold State.spriteAt
  rw [decide_eq_true (by omega), Nat.add_sub_cancel_left, Nat.add_sub_cancel_left, Bool.true_and]

/-- A collision: a lit pixel under a set sprite bit. -/
theorem collides_iff (s : State) (X Y n : Nat) :
    s.collides X Y n = true ↔ ∃ k j, k < n ∧ j < 8 ∧ s.pixel (Y + k) (X + j) = true ∧ s.spriteBit k j = true := by
  unfold State.collides
  simp only [List.any_eq_true, List.mem_range, Bool.and_eq_true]
  constructor
  · rintro ⟨k, hk, j, hj, h⟩; exact ⟨k, j, hk, hj, h⟩
  · rintro ⟨k, j, hk, hj, h⟩; exact ⟨k, hk, j, hj, h⟩

theorem drawSprite_fb (s : State) (X Y n : Nat) : (s.drawSprite X Y n).fb = fbOf fun r c => s.pixel r c ^^ s.spriteAt X Y n r c := by
  unfold State.drawSprite; rfl

theorem drawSprite_V (s : State) (X Y n : Nat) : (s.drawSprite X Y n).V = (s.setFlag (s.collides X Y n)).V := by
  unfold State.drawSprite; rfl

/-- Each pixel after a draw: inverted where the sprite sets a bit inside the framebuffer. -/
theorem pixel_drawSprite (s : State) (X Y n r c : Nat) :
    (s.drawSprite X Y n).pixel r c = (s.pixel r c ^^ (s.spriteAt X Y n r c && decide (r < 32 ∧ c < 64))) := by
  rw [pixel_fbOf (drawSprite_fb s X Y n)]
  by_cases h : r < 32 ∧ c < 64
  · simp [h]
  · simp [h, pixel_outside]

theorem getV_drawSprite (s : State) (X Y n : Nat) (r : Reg) :
    (s.drawSprite X Y n).getV r = if r = flagReg then flagByte (s.collides X Y n) else s.getV r := by
  rw [State.getV_congr (drawSprite_V s X Y n)]
  simp only [State.setFlag, State.getV_setV]

theorem onlyFb_drawSprite (s : State) (X Y n : Nat) : onlyFb [flagReg] s (s.drawSprite X Y n) := by
  refine ⟨fun r hr => ?_, rfl, rfl, ⟨rfl, rfl⟩, ⟨rfl, rfl⟩, fun _ => rfl, sameBoundary_refl s⟩
  rw [getV_drawSprite, if_neg (by simpa using hr)]

end Sys2Proof.Machine
end

