-- ==== Sys2Proof/Laws/PerInstr.lean ====
section
/-! SUPPORT. Per instruction, as syntax: its canonical word meets the mask and the bits of its own row of the opcode table
(30_encoding.md R71, R76), whatever its operands. One lemma per constructor. -/

namespace Sys2Proof.Laws.RowMatch

/-- The canonical word of an instruction is of the row of its mnemonic. -/
def Statement (i : Instr) : Prop := encodeWord i &&& (rowOf i).mask = (rowOf i).bits

/-- A row of mask 0xF000: the family decides. -/
theorem byFamily (f : Nibble) {i : Instr} (hm : (rowOf i).mask = 0xF000) (hb : (rowOf i).bits = encNNN f 0)
    (hf : famOf (encodeWord i) = f) : Statement i := by
  unfold Statement
  rw [hm, and_F000, hf, hb]

/-- A row of mask 0xF00F: the family and the low nibble decide. -/
theorem byNibble (f n : Nibble) {i : Instr} (hm : (rowOf i).mask = 0xF00F) (hb : (rowOf i).bits = encXYN f 0 0 n)
    (hf : famOf (encodeWord i) = f) (hn : nOf (encodeWord i) = n) : Statement i := by
  unfold Statement
  rw [hm, and_F00F, hf, hn, hb]

/-- A row of mask 0xF0FF: the family and the low byte decide. -/
theorem byByte (f : Nibble) (k : Byte) {i : Instr} (hm : (rowOf i).mask = 0xF0FF) (hb : (rowOf i).bits = encXKK f 0 k)
    (hf : famOf (encodeWord i) = f) (hk : kkOf (encodeWord i) = k) : Statement i := by
  unfold Statement
  rw [hm, and_F0FF, hf, hk, hb]

theorem cls : Statement .cls :=
  by unfold Statement; decide

theorem ret : Statement .ret :=
  by unfold Statement; decide

theorem jp (nnn : Addr) : Statement (.jp nnn) :=
  byFamily 0x1 rfl (by show (0x1000 : Word) = _; decide) (famOf_encNNN ..)

theorem call (nnn : Addr) : Statement (.call nnn) :=
  byFamily 0x2 rfl (by show (0x2000 : Word) = _; decide) (famOf_encNNN ..)

theorem seI (x : Reg) (kk : Byte) : Statement (.seI x kk) :=
  byFamily 0x3 rfl (by show (0x3000 : Word) = _; decide) (famOf_encXKK ..)

theorem sneI (x : Reg) (kk : Byte) : Statement (.sneI x kk) :=
  byFamily 0x4 rfl (by show (0x4000 : Word) = _; decide) (famOf_encXKK ..)

theorem seR (x y : Reg) : Statement (.seR x y) :=
  byFamily 0x5 rfl (by show (0x5000 : Word) = _; decide) (famOf_encXYN ..)

theorem sneR (x y : Reg) : Statement (.sneR x y) :=
  byFamily 0x9 rfl (by show (0x9000 : Word) = _; decide) (famOf_encXYN ..)

theorem ldI (x : Reg) (kk : Byte) : Statement (.ldI x kk) :=
  byFamily 0x6 rfl (by show (0x6000 : Word) = _; decide) (famOf_encXKK ..)

theorem addI (x : Reg) (kk : Byte) : Statement (.addI x kk) :=
  byFamily 0x7 rfl (by show (0x7000 : Word) = _; decide) (famOf_encXKK ..)

theorem ldR (x y : Reg) : Statement (.ldR x y) :=
  byNibble 0x8 0x0 rfl (by show (0x8000 : Word) = _; decide) (famOf_encXYN ..) (nOf_encXYN ..)

theorem orR (x y : Reg) : Statement (.orR x y) :=
  byNibble 0x8 0x1 rfl (by show (0x8001 : Word) = _; decide) (famOf_encXYN ..) (nOf_encXYN ..)

theorem andR (x y : Reg) : Statement (.andR x y) :=
  byNibble 0x8 0x2 rfl (by show (0x8002 : Word) = _; decide) (famOf_encXYN ..) (nOf_encXYN ..)

theorem xorR (x y : Reg) : Statement (.xorR x y) :=
  byNibble 0x8 0x3 rfl (by show (0x8003 : Word) = _; decide) (famOf_encXYN ..) (nOf_encXYN ..)

theorem addR (x y : Reg) : Statement (.addR x y) :=
  byNibble 0x8 0x4 rfl (by show (0x8004 : Word) = _; decide) (famOf_encXYN ..) (nOf_encXYN ..)

theorem sub (x y : Reg) : Statement (.sub x y) :=
  byNibble 0x8 0x5 rfl (by show (0x8005 : Word) = _; decide) (famOf_encXYN ..) (nOf_encXYN ..)

theorem shr (x y : Reg) : Statement (.shr x y) :=
  byNibble 0x8 0x6 rfl (by show (0x8006 : Word) = _; decide) (famOf_encXYN ..) (nOf_encXYN ..)

theorem subn (x y : Reg) : Statement (.subn x y) :=
  byNibble 0x8 0x7 rfl (by show (0x8007 : Word) = _; decide) (famOf_encXYN ..) (nOf_encXYN ..)

theorem shl (x y : Reg) : Statement (.shl x y) :=
  byNibble 0x8 0xE rfl (by show (0x800E : Word) = _; decide) (famOf_encXYN ..) (nOf_encXYN ..)

theorem ldIndex (nnn : Addr) : Statement (.ldIndex nnn) :=
  byFamily 0xA rfl (by show (0xA000 : Word) = _; decide) (famOf_encNNN ..)

theorem jpV0 (nnn : Addr) : Statement (.jpV0 nnn) :=
  byFamily 0xB rfl (by show (0xB000 : Word) = _; decide) (famOf_encNNN ..)

theorem rnd (x : Reg) (kk : Byte) : Statement (.rnd x kk) :=
  byFamily 0xC rfl (by show (0xC000 : Word) = _; decide) (famOf_encXKK ..)

theorem drw (x y : Reg) (n : Nibble) : Statement (.drw x y n) :=
  byFamily 0xD rfl (by show (0xD000 : Word) = _; decide) (famOf_encXYN ..)

theorem skp (x : Reg) : Statement (.skp x) :=
  byNibble 0xE 0xE rfl (by show (0xE00E : Word) = _; decide) (famOf_encXKK ..) ((nOf_encXKK ..).trans (by decide))

theorem sknp (x : Reg) : Statement (.sknp x) :=
  byNibble 0xE 0x1 rfl (by show (0xE001 : Word) = _; decide) (famOf_encXKK ..) ((nOf_encXKK ..).trans (by decide))

theorem ldFromDT (x : Reg) : Statement (.ldFromDT x) :=
  byByte 0xF 0x07 rfl (by show (0xF007 : Word) = _; decide) (famOf_encXKK ..) (kkOf_encXKK ..)

theorem ldDT (x : Reg) : Statement (.ldDT x) :=
  byByte 0xF 0x15 rfl (by show (0xF015 : Word) = _; decide) (famOf_encXKK ..) (kkOf_encXKK ..)

theorem ldST (x : Reg) : Statement (.ldST x) :=
  byByte 0xF 0x18 rfl (by show (0xF018 : Word) = _; decide) (famOf_encXKK ..) (kkOf_encXKK ..)

theorem ldKey (x : Reg) : Statement (.ldKey x) :=
  byByte 0xF 0x0A rfl (by show (0xF00A : Word) = _; decide) (famOf_encXKK ..) (kkOf_encXKK ..)

theorem addIndex (x : Reg) : Statement (.addIndex x) :=
  byByte 0xF 0x1E rfl (by show (0xF01E : Word) = _; decide) (famOf_encXKK ..) (kkOf_encXKK ..)

theorem ldFont (x : Reg) : Statement (.ldFont x) :=
  byByte 0xF 0x29 rfl (by show (0xF029 : Word) = _; decide) (famOf_encXKK ..) (kkOf_encXKK ..)

theorem ldBcd (x : Reg) : Statement (.ldBcd x) :=
  byByte 0xF 0x33 rfl (by show (0xF033 : Word) = _; decide) (famOf_encXKK ..) (kkOf_encXKK ..)

theorem ldMem (x : Reg) : Statement (.ldMem x) :=
  byByte 0xF 0x55 rfl (by show (0xF055 : Word) = _; decide) (famOf_encXKK ..) (kkOf_encXKK ..)

theorem ldRegs (x : Reg) : Statement (.ldRegs x) :=
  byByte 0xF 0x65 rfl (by show (0xF065 : Word) = _; decide) (famOf_encXKK ..) (kkOf_encXKK ..)

theorem nop0 (code : BitVec 12) : Statement (.nop0 code) :=
  byFamily 0x0 rfl (by show (0x0000 : Word) = _; decide) (famOf_encNNN ..)

theorem nop8 (code : BitVec 12) : Statement (.nop8 code) :=
  byFamily 0x8 rfl (by show (0x8000 : Word) = _; decide) (famOf_encNNN ..)

theorem nopE (code : BitVec 12) : Statement (.nopE code) :=
  byFamily 0xE rfl (by show (0xE000 : Word) = _; decide) (famOf_encNNN ..)

theorem nopF (code : BitVec 12) : Statement (.nopF code) :=
  byFamily 0xF rfl (by show (0xF000 : Word) = _; decide) (famOf_encNNN ..)

end Sys2Proof.Laws.RowMatch
end

