-- ==== Sys2Proof/Laws/Step.lean ====
section
/-! SUPPORT. The step inverted once: what a step that ends in a next state, and one that ends in a fault, has done. -/

namespace Sys2Proof.Machine

theorem fetch_ok {s : State} (h : s.pc.toNat < 4095) :
    fetch s = .ok (wordOfBytes (s.readByte s.pc.toNat) (s.readByte (s.pc.toNat + 1))) := by
  unfold fetch
  rw [if_neg (by simp only [Config.memSize]; omega)]

theorem fetch_error {s : State} (h : 4095 ≤ s.pc.toNat) : fetch s = .error (.fetchRange (max s.pc.toNat 4096)) := by
  unfold fetch
  rw [if_pos (by simp only [Config.memSize]; omega)]

/-- A fetched word comes from a `pc` below 4095. -/
theorem pc_lt_of_fetch {s : State} {op : Word} (h : fetch s = .ok op) : s.pc.toNat < 4095 := by
  by_contra hc
  rw [fetch_error (by omega)] at h
  cases h

/-- The fetch is of `pc`, memory and the font alone. -/
theorem fetch_congr {s t : State} (hp : t.pc = s.pc) (hm : t.mem = s.mem) (hf : t.font = s.font) : fetch t = fetch s := by
  unfold fetch
  rw [hp, State.readByte_congr hm hf, State.readByte_congr hm hf]

/-- What a step can do: fault at the fetch, or execute the decoded instruction and finish. -/
theorem step_eq (s : State) :
    (4095 ≤ s.pc.toNat ∧ step s = .fault (.fetchRange (max s.pc.toNat 4096))) ∨
    ∃ op, fetch s = .ok op ∧ step s = finishStep (exec (decodeWord op) s.sample.advance) := by
  by_cases h : s.pc.toNat < 4095
  · refine .inr ⟨_, fetch_ok h, ?_⟩
    unfold step
    rw [fetch_ok h]
  · refine .inl ⟨by omega, ?_⟩
    unfold step
    rw [fetch_error (by omega)]
    rfl

theorem step_of_fetch {s : State} {op : Word} (h : fetch s = .ok op) :
    step s = finishStep (exec (decodeWord op) s.sample.advance) := by
  unfold step
  rw [h]

theorem finishStep_next {o : Outcome} {t : State} (h : finishStep o = .next t) : ∃ u, o = .next u ∧ t = u.tick := by
  cases o with
  | next u => exact ⟨u, rfl, by simpa [finishStep] using h.symm⟩
  | fault f => cases h
  | refused r => cases h

theorem finishStep_fault {o : Outcome} {f : Fault} (h : finishStep o = .fault f) : o = .fault f := by
  cases o with
  | next u => cases h
  | fault g => simpa [finishStep] using h
  | refused r => cases h

/-- A step that ends in a next state: the four phases. -/
theorem step_next {s t : State} (h : step s = .next t) :
    ∃ op u, fetch s = .ok op ∧ exec (decodeWord op) s.sample.advance = .next u ∧ t = u.tick := by
  rcases step_eq s with ⟨_, e⟩ | ⟨op, hf, e⟩ <;> rw [e] at h
  · cases h
  · obtain ⟨u, hu, rfl⟩ := finishStep_next h
    exact ⟨op, u, hf, hu, rfl⟩

/-- A step whose instruction goes to `u` goes to `u` ticked. -/
theorem step_of_exec {s u : State} {op : Word} (hf : fetch s = .ok op) (hu : exec (decodeWord op) s.sample.advance = .next u) :
    step s = .next u.tick := by
  rw [step_of_fetch hf, hu]; rfl

/-- A run whose first step goes to `t` goes on from `t`. -/
theorem run_of_step {M : Host.Core} {n : Nat} {s t : M.State} (h : M.step s = .next t) : M.run (n + 1) s = M.run n t := by
  simp only [Host.Core.run, h]

/-- A step goes on to phase 4 only without a fault; it faults exactly as its phase 3 does. -/
theorem finishStep_fault_iff {o : Outcome} {f : Fault} : finishStep o = .fault f ↔ o = .fault f :=
  ⟨finishStep_fault, fun h => by rw [h]; rfl⟩

/-! ### The fields that only carry inputs and outputs between steps -/

/-- The state with other supplied inputs, another count of draws and other tone outputs. -/
def State.withCarried (s : State) (p : List StepInput) (d : Nat) (a b : Bool) : State :=
  { s with pending := p, draws := d, toneOn := a, toneStop := b }

theorem storeBytes_withCarried (p : List StepInput) (d : Nat) (a b : Bool) (bs : List Byte) :
    ∀ (addr : Nat) (s : State), storeBytes addr bs (s.withCarried p d a b) = (storeBytes addr bs s).withCarried p d a b := by
  induction bs with
  | nil => intro addr s; rfl
  | cons v bs ih => intro addr s; exact ih (addr + 1) (s.writeByte addr v)

theorem loadRegs_withCarried (p : List StepInput) (d : Nat) (a b : Bool) (n : Nat) (s : State) :
    loadRegs n (s.withCarried p d a b) = (loadRegs n s).withCarried p d a b := by
  induction n with
  | zero => rfl
  | succ n ih => simp only [loadRegs, ih]; rfl

theorem skipIf_withCarried (p : List StepInput) (d : Nat) (a b : Bool) (s : State) (c : Bool) :
    (s.withCarried p d a b).skipIf c = (s.skipIf c).withCarried p d a b := by
  cases c <;> rfl

/-- A range-checked access commutes with a change of the state that keeps `I`. -/
theorem accessing_map (f : State → State) (s : State) (n : Nat) (t : State) (hI : (f s).I = s.I) :
    accessing (f s) n (f t) = mapNext f (accessing s n t) := by
  have e : (f s).rangeFault n = s.rangeFault n := by unfold State.rangeFault; rw [hI]
  unfold accessing
  rw [e]
  cases s.rangeFault n <;> rfl

/-- No instruction reads or writes the fields that only carry inputs and outputs between steps. -/
theorem exec_withCarried (i : Instr) (s : State) (p : List StepInput) (d : Nat) (a b : Bool) :
    exec i (s.withCarried p d a b) = mapNext (fun t => t.withCarried p d a b) (exec i s) := by
  cases i <;> simp only [exec]
  case ret => unfold execRet popReturn State.withCarried; dsimp only; split <;> rfl
  case call => unfold execCall pushAndJump State.withCarried; dsimp only; split <;> rfl
  case seI => unfold execSeI; rw [skipIf_withCarried]; rfl
  case sneI => unfold execSneI; rw [skipIf_withCarried]; rfl
  case seR => unfold execSeR; rw [skipIf_withCarried]; rfl
  case sneR => unfold execSneR; rw [skipIf_withCarried]; rfl
  case skp x => unfold execSkp skipOnKey; rw [show (s.withCarried p d a b).getV x = s.getV x from rfl, skipIf_withCarried]; split <;> rfl
  case sknp x => unfold execSknp skipOnKey; rw [show (s.withCarried p d a b).getV x = s.getV x from rfl, skipIf_withCarried]; split <;> rfl
  case ldKey => unfold execLdKey; rw [show (s.withCarried p d a b).lowestKey = s.lowestKey from rfl]; cases s.lowestKey <;> rfl
  case drw x y n =>
    exact accessing_map (fun t => t.withCarried p d a b) s n.toNat
      (s.drawSprite (originColumn (s.getV x)) (originRow (s.getV y)) n.toNat) rfl
  case ldBcd => unfold execLdBcd; rw [storeBytes_withCarried]; exact accessing_map (fun t => t.withCarried p d a b) s _ _ rfl
  case ldMem => unfold execLdMem; rw [storeBytes_withCarried]; exact accessing_map (fun t => t.withCarried p d a b) s _ _ rfl
  case ldRegs => unfold execLdRegs; rw [loadRegs_withCarried]; exact accessing_map (fun t => t.withCarried p d a b) s _ _ rfl
  all_goals rfl

end Sys2Proof.Machine
end

