-- ==== Sys2Proof/Tests/Slice0.lean ====
section
/-! SUPPORT. The model's own tests. Expected results are those of spec/95_test_vectors.md (named V<n>, T<n>, P<n>) or of a rule's
Example; each test is one step. After them: the witnesses of the obligations' hypotheses. -/

namespace Sys2Proof.Tests

open Sys2Proof Sys2Proof.Machine

/-! ### Helpers -/

/-- The outcome of the step that runs one word placed at `pc`. -/
def run (w : Nat) (s : State) : Outcome := step (s.withFetchWord 16 w)

/-- What the step leaves, read by `f`; nothing if it does not end in a next state. -/
def left {α : Type} (o : Outcome) (f : State → α) : Option α :=
  match o with
  | .next t => some (f t)
  | .fault _ => none
  | .refused _ => none

/-- The fault a step ends in. -/
def faulted (o : Outcome) : Option Fault :=
  match o with
  | .next _ => none
  | .fault f => some f
  | .refused _ => none

/-- The reset state with registers set. -/
def withV (vs : List (Reg × Byte)) (s : State) : State := vs.foldl (fun t p => t.setV p.1 p.2) s

/-- The next step's keys (bit mask) and random byte. -/
def withInput (keys : Keys) (random : Byte) (s : State) : State := { s with pending := [⟨keys, random⟩] }

/-- Pixels lit. -/
def withLit (ps : List (Nat × Nat)) (s : State) : State := { s with fb := fbOf fun r c => ps.contains (r, c) }

/-- Are exactly these pixels of the first rows and columns lit? -/
def litIn (rows cols : List Nat) (t : State) : List (Nat × Nat) :=
  rows.flatMap fun r => (cols.filter fun c => t.pixel r c).map fun c => (r, c)

/-! ### WellFormed refuses an ill-formed term of each check -/

theorem test_wf_refuses_nop0 : (Instr.nop0 0x0E0).wf = false := by decide
theorem test_wf_refuses_nop8 : (Instr.nop8 0x127).wf = false := by decide
theorem test_wf_refuses_nopE : (Instr.nopE 0x2F1).wf = false := by decide
theorem test_wf_refuses_nopF : (Instr.nopF 0x365).wf = false := by decide
theorem test_wf_accepts : (Instr.nop0 0x001).wf = true ∧ (Instr.nop8 0x008).wf = true ∧ (Instr.nopE 0x200).wf = true ∧
    (Instr.nopF 0x3FF).wf = true ∧ (Instr.drw 0 1 5).wf = true := by decide

/-! ### Decoding: words written out bit by bit from opcode_table.json's `encoding` column -/

theorem test_decode_display_flow : [0b0000000011100000, 0b0000000011101110, 0b0001101010111100, 0b0010001100000000, 0b0011101001000010,
    0b0100101001000010, 0b0101000100100000, 0b1001000100100000, 0b1011001100000100].map decodeWord =
    [.cls, .ret, .jp 0xABC, .call 0x300, .seI 10 0x42, .sneI 10 0x42, .seR 1 2, .sneR 1 2, .jpV0 0x304] := by decide

theorem test_decode_alu : [0b0110101001111111, 0b0111101000000001, 0b1000000100100000, 0b1000000100100001, 0b1000000100100010,
    0b1000000100100011, 0b1000000100100100, 0b1000000100100101, 0b1000000100100110, 0b1000000100100111, 0b1000000100101110,
    0b1100000100001111].map decodeWord =
    [.ldI 10 0x7F, .addI 10 1, .ldR 1 2, .orR 1 2, .andR 1 2, .xorR 1 2, .addR 1 2, .sub 1 2, .shr 1 2, .subn 1 2, .shl 1 2,
     .rnd 1 0x0F] := by decide

theorem test_decode_index_draw_key : [0b1010000001010000, 0b1101000000010101, 0b1110001010011110, 0b1110001010100001,
    0b1111001100000111, 0b1111001100010101, 0b1111001100011000, 0b1111010100001010, 0b1111001000011110, 0b1111010000101001,
    0b1111000100110011, 0b1111001001010101, 0b1111000101100101].map decodeWord =
    [.ldIndex 0x050, .drw 0 1 5, .skp 2, .sknp 2, .ldFromDT 3, .ldDT 3, .ldST 3, .ldKey 5, .addIndex 2, .ldFont 4, .ldBcd 1,
     .ldMem 2, .ldRegs 1] := by decide

theorem test_decode_unassigned : [0x0001, 0x8008, 0xE200, 0xE29F, 0xF300, 0xF3FF].map decodeWord =
    [.nop0 0x001, .nop8 0x008, .nopE 0x200, .nopE 0x29F, .nopF 0x300, .nopF 0x3FF] := by decide

/-- V14, V18, V141, V142, V143, V166, V167: non-canonical words (R77). -/
theorem test_decode_aliases : [0x5127, 0x9129, 0x0000, 0x0230, 0x012E, 0xE20E, 0xE2F1].map decodeWord =
    [.seR 1 2, .sneR 1 2, .cls, .cls, .ret, .skp 2, .sknp 2] := by decide

theorem test_decode_truncated : (decode [0x12] = .error .truncated) ∧ decode [0xA0, 0x50, 0x77] = .ok (.ldIndex 0x050, [0x77]) := by
  decide

theorem test_encode_canonical : [Instr.cls, .ret, .seR 1 2, .sneR 1 2, .skp 2, .sknp 2, .shr 1 0, .nop8 0x008].map encodeWord =
    [0x00E0, 0x00EE, 0x5120, 0x9120, 0xE29E, 0xE2A1, 0x8106, 0x8008] := by decide

/-- The host's entry point: bit 0 is the least significant bit of the word. -/
theorem test_decode_table_word : decodeTableWord 16 0xD015 = some (.drw 0 1 5) ∧ decodeTableWord 16 0xF065 = some (.ldRegs 0) := by
  decide

/-! ### Control transfer (2.1) -/

/-- V1. -/
theorem test_ret : left (run 0x00EE { State.reset with sp := 2, stack := (State.reset.stack.set 0 0x0302).set 1 0x0456 })
    (fun t => (t.pc, t.sp, t.stack[1])) = some (0x0456, 1, 0x0456) := by decide
/-- V2. -/
theorem test_ret_empty : faulted (run 0x00EE .reset) = some .stackUnderflow := by decide
/-- V3. -/
theorem test_jp : left (run 0x1ABC .reset) (fun t => t.pc) = some 0x0ABC := by decide
/-- V4. -/
theorem test_jp_self_ticks : left (run 0x1200 { State.reset with DT := 1 }) (fun t => (t.pc, t.DT)) = some (0x0200, 0) := by decide
/-- V6. -/
theorem test_call_sixteenth : left (run 0x2300 { State.reset with sp := 15, pc := 0x0FFE })
    (fun t => (t.pc, t.sp, t.stack[15])) = some (0x0300, 16, 0x1000) := by decide
/-- V7. -/
theorem test_call_full : faulted (run 0x2300 { State.reset with sp := 16 }) = some .stackOverflow := by decide
/-- V8, V9. -/
theorem test_seI : left (run 0x3A42 (withV [(10, 0x42)] .reset)) (fun t => t.pc) = some 0x0204 ∧
    left (run 0x3A42 (withV [(10, 0x43)] .reset)) (fun t => t.pc) = some 0x0202 := by decide
/-- V10, V11. -/
theorem test_sneI : left (run 0x4A42 (withV [(10, 0x42)] .reset)) (fun t => t.pc) = some 0x0202 ∧
    left (run 0x4A42 (withV [(10, 0x43)] .reset)) (fun t => t.pc) = some 0x0204 := by decide
/-- V12, V13. -/
theorem test_seR : left (run 0x5120 (withV [(1, 7), (2, 7)] .reset)) (fun t => t.pc) = some 0x0204 ∧
    left (run 0x5120 (withV [(1, 7), (2, 8)] .reset)) (fun t => t.pc) = some 0x0202 := by decide
/-- V16, V17. -/
theorem test_sneR : left (run 0x9120 (withV [(1, 7), (2, 7)] .reset)) (fun t => t.pc) = some 0x0202 ∧
    left (run 0x9120 (withV [(1, 7), (2, 8)] .reset)) (fun t => t.pc) = some 0x0204 := by decide
/-- V21. -/
theorem test_jpV0 : left (run 0xBFFF (withV [(0, 0xFF)] .reset)) (fun t => t.pc) = some 0x10FE := by decide
/-- V23. -/
theorem test_skip_past_end : left (run 0x3000 { State.reset with pc := 0x0FFE }) (fun t => t.pc) = some 0x1002 := by decide
/-- V24, V25, V26. -/
theorem test_fetch_range : faulted (step { State.reset with pc := 0x0FFF }) = some (.fetchRange 4096) ∧
    faulted (step { State.reset with pc := 0x1000 }) = some (.fetchRange 4096) ∧
    faulted (step { State.reset with pc := 0x10FE }) = some (.fetchRange 4350) := by decide
/-- V27. -/
theorem test_odd_pc : left (run 0x6177 { State.reset with pc := 0x0201 }) (fun t => (t.pc, t.getV 1)) = some (0x0203, 0x77) := by decide

/-! ### Register load, arithmetic, logic, shifts, random (2.2), the flag register as operand (2.3) -/

/-- V41. -/
theorem test_ldI : left (run 0x6F55 .reset) (fun t => (t.pc, t.getV 15)) = some (0x0202, 0x55) := by decide
/-- V42. -/
theorem test_addI_wraps : left (run 0x7A01 (withV [(10, 0xFF), (15, 0x5A)] .reset)) (fun t => (t.getV 10, t.getV 15)) =
    some (0x00, 0x5A) := by decide
/-- V44. -/
theorem test_ldR : left (run 0x8120 (withV [(1, 1), (2, 0x9C)] .reset)) (fun t => (t.getV 1, t.getV 2)) = some (0x9C, 0x9C) := by decide
/-- V46, V95. -/
theorem test_orR : left (run 0x8121 (withV [(1, 0xF0), (2, 0x0C), (15, 1)] .reset)) (fun t => (t.getV 1, t.getV 15)) = some (0xFC, 0) ∧
    left (run 0x81F1 (withV [(1, 1), (15, 2)] .reset)) (fun t => (t.getV 1, t.getV 15)) = some (3, 0) := by decide
/-- V47, V81. -/
theorem test_andR : left (run 0x8122 (withV [(1, 0xF0), (2, 0x3C), (15, 1)] .reset)) (fun t => (t.getV 1, t.getV 15)) = some (0x30, 0) ∧
    left (run 0x8F12 (withV [(15, 0xF0), (1, 0xFF)] .reset)) (fun t => t.getV 15) = some 0 := by decide
/-- V48, V49. -/
theorem test_xorR : left (run 0x8123 (withV [(1, 0xF0), (2, 0x3C), (15, 1)] .reset)) (fun t => (t.getV 1, t.getV 15)) = some (0xCC, 0) ∧
    left (run 0x8113 (withV [(1, 0xF0), (15, 7)] .reset)) (fun t => (t.getV 1, t.getV 15)) = some (0, 0) := by decide
/-- V50, V51. -/
theorem test_addR : left (run 0x8124 (withV [(1, 0xFF), (2, 1)] .reset)) (fun t => (t.getV 1, t.getV 15)) = some (0, 1) ∧
    left (run 0x8124 (withV [(1, 0xFF), (15, 1)] .reset)) (fun t => (t.getV 1, t.getV 15)) = some (0xFF, 0) := by decide
/-- V83, V93. -/
theorem test_addR_flag_operand : left (run 0x8F14 (withV [(15, 0xFF), (1, 2)] .reset)) (fun t => t.getV 15) = some 1 ∧
    left (run 0x81F4 (withV [(1, 0xFF), (15, 2)] .reset)) (fun t => (t.getV 1, t.getV 15)) = some (1, 1) := by decide
/-- V54, V55. -/
theorem test_sub : left (run 0x8125 (withV [(1, 0x10), (2, 1)] .reset)) (fun t => (t.getV 1, t.getV 15)) = some (0x0F, 1) ∧
    left (run 0x8125 (withV [(1, 1), (2, 0x10), (15, 1)] .reset)) (fun t => (t.getV 1, t.getV 15)) = some (0xF1, 0) := by decide
/-- V56, V85. -/
theorem test_sub_equal : left (run 0x8125 (withV [(1, 0x42), (2, 0x42), (15, 1)] .reset)) (fun t => (t.getV 1, t.getV 15)) =
    some (0, 0) ∧ left (run 0x8F15 (withV [(15, 5), (1, 2)] .reset)) (fun t => t.getV 15) = some 1 := by decide
/-- V59, V60. -/
theorem test_subn : left (run 0x8127 (withV [(1, 1), (2, 0x10)] .reset)) (fun t => (t.getV 1, t.getV 15)) = some (0x0F, 1) ∧
    left (run 0x8127 (withV [(1, 0x10), (2, 1), (15, 1)] .reset)) (fun t => (t.getV 1, t.getV 15)) = some (0xF1, 0) := by decide
/-- V62, V88. -/
theorem test_shr : left (run 0x8126 (withV [(1, 5), (2, 0xEE)] .reset)) (fun t => (t.getV 1, t.getV 2, t.getV 15)) =
    some (2, 0xEE, 1) ∧ left (run 0x8F16 (withV [(15, 7)] .reset)) (fun t => t.getV 15) = some 3 := by decide
/-- V66, V90. -/
theorem test_shl : left (run 0x812E (withV [(1, 0x81)] .reset)) (fun t => (t.getV 1, t.getV 15)) = some (2, 1) ∧
    left (run 0x8F1E (withV [(15, 0x81)] .reset)) (fun t => t.getV 15) = some 2 := by decide
/-- V69, V72. -/
theorem test_rnd : left (run 0xC10F (withInput 0 0xA7 (withV [(1, 0xFF)] .reset))) (fun t => t.getV 1) = some 7 ∧
    left (run 0xCFFF (withInput 0 0x5A (withV [(15, 1)] .reset))) (fun t => t.getV 15) = some 0x5A := by decide

/-! ### Index register and memory (2.4) -/

/-- V111. -/
theorem test_ldIndex : left (run 0xAFFF .reset) (fun t => t.I) = some 0x0FFF := by decide
/-- V112, V113. -/
theorem test_addIndex : left (run 0xF21E (withV [(2, 5)] { State.reset with I := 0x0FFE })) (fun t => (t.I, t.getV 15)) =
    some (0x1003, 0) ∧ left (run 0xF21E (withV [(2, 1)] { State.reset with I := 0xFFFF })) (fun t => t.I) = some 0 := by decide
/-- V115, V119. -/
theorem test_ldFont : left (run 0xF429 (withV [(4, 0x0A)] .reset)) (fun t => t.I) = some 0x0082 ∧
    left (run 0xF429 (withV [(4, 0xFF)] .reset)) (fun t => t.I) = some 0x054B := by decide
/-- V120. -/
theorem test_ldBcd : left (run 0xF133 (withV [(1, 0x9C)] { State.reset with I := 0x0300 }))
    (fun t => [0x300, 0x301, 0x302, 0x303].map t.readByte) = some [1, 5, 6, 0] := by decide
/-- V123, V124, V125. -/
theorem test_ldBcd_edge : left (run 0xF133 (withV [(1, 7)] { State.reset with I := 0x0FFD })) (fun t => t.readByte 0xFFF) = some 7 ∧
    faulted (run 0xF133 (withV [(1, 7)] { State.reset with I := 0x0FFE })) = some (.dataRange 4096) ∧
    faulted (run 0xF133 (withV [(1, 7)] { State.reset with I := 0x1003 })) = some (.dataRange 4099) := by decide
/-- V126. -/
theorem test_ldMem : left (run 0xF255 (withV [(0, 0x11), (1, 0x22), (2, 0x33), (3, 0x44)] { State.reset with I := 0x0400 }))
    (fun t => ([0x400, 0x401, 0x402, 0x403].map t.readByte, t.I)) = some ([0x11, 0x22, 0x33, 0], 0x0400) := by decide
/-- V127, V128. -/
theorem test_ldMem_edge : left (run 0xF055 (withV [(0, 0xAB)] { State.reset with I := 0x0FFF })) (fun t => t.readByte 0xFFF) =
    some 0xAB ∧ faulted (run 0xF155 (withV [(0, 0xAB), (1, 0xCD)] { State.reset with I := 0x0FFF })) = some (.dataRange 4096) := by decide
/-- V131. -/
theorem test_ldRegs : left (run 0xF165 (storeBytes 0x400 [0xAA, 0xBB, 0xCC] (withV [(2, 0x55)] { State.reset with I := 0x0400 })))
    (fun t => ([0, 1, 2].map t.getV, t.I)) = some ([0xAA, 0xBB, 0x55], 0x0400) := by decide
/-- V134, V135. -/
theorem test_ldRegs_edge : faulted (run 0xF165 { State.reset with I := 0x0FFF }) = some (.dataRange 4096) ∧
    left (run 0xF065 { State.reset with I := 0x0050 }) (fun t => t.getV 0) = some 0xF0 := by decide

/-! ### Framebuffer (2.5) -/

/-- V140. -/
theorem test_cls : left (run 0x00E0 (withLit [(0, 0), (31, 63), (5, 7)] (withV [(15, 1)] .reset)))
    (fun t => (t.pixel 0 0, t.pixel 31 63, t.pixel 5 7, t.getV 15)) = some (false, false, false, 1) := by decide
/-- V145: bit 7 at column X, bit 0 at column X+7. -/
theorem test_drw_bits : left (run 0xD011 (storeBytes 0x300 [0x81] (withV [(0, 0x0A), (1, 5)] { State.reset with I := 0x0300 })))
    (fun t => (litIn [4, 5, 6] (List.range 24) t, t.getV 15)) = some ([(5, 10), (5, 17)], 0) := by decide
/-- V154: clipped at the right edge, no wrap, no collision. -/
theorem test_drw_clips : left (run 0xD011 (storeBytes 0x300 [0xC0] (withLit [(0, 0)] (withV [(0, 0x3F)] { State.reset with I := 0x0300 }))))
    (fun t => (litIn [0, 1] [0, 1, 62, 63] t, t.getV 15)) = some ([(0, 0), (0, 63)], 0) := by decide
/-- V153, V159. -/
theorem test_drw_collides : left (run 0xD011 (storeBytes 0x300 [0xF0] (withLit [(0, 1)] { State.reset with I := 0x0300 })))
    (fun t => (litIn [0] (List.range 10) t, t.getV 15)) = some ([(0, 0), (0, 2), (0, 3)], 1) ∧
    left (run 0xDFF1 (storeBytes 0x300 [0x80] (withV [(15, 5)] { State.reset with I := 0x0300 })))
    (fun t => (t.pixel 5 5, t.getV 15)) = some (true, 0) := by decide
/-- V150, V158. -/
theorem test_drw_range : left (run 0xD010 (withV [(15, 1)] { State.reset with I := 0xFFFF })) (fun t => t.getV 15) = some 0 ∧
    faulted (run 0xD013 (withV [(1, 0x1F)] { State.reset with I := 0x0FFE })) = some (.dataRange 4096) := by decide
/-- T1, step 4: the digit 0 of the default font (general knowledge, K2). -/
theorem test_drw_glyph : left (run 0xD015 { State.reset with I := 0x0050 })
    (fun t => (litIn [0, 1, 2, 3, 4, 5] (List.range 8) t, t.getV 15)) =
    some ([(0, 0), (0, 1), (0, 2), (0, 3), (1, 0), (1, 3), (2, 0), (2, 3), (3, 0), (3, 3), (4, 0), (4, 1), (4, 2), (4, 3)], 0) := by decide

/-! ### Keypad, timers, tone, no-ops (2.6) -/

/-- V160, V161. -/
theorem test_skp : left (run 0xE29E (withInput 0x0400 0 (withV [(2, 0x0A)] .reset))) (fun t => t.pc) = some 0x0204 ∧
    left (run 0xE29E (withInput 0x0800 0 (withV [(2, 0x0A)] .reset))) (fun t => t.pc) = some 0x0202 := by decide
/-- V164. -/
theorem test_skp_index : faulted (run 0xE29E (withInput 0xFFFF 0 (withV [(2, 0x10)] .reset))) = some (.keyIndex 16) := by decide
/-- V162, V163. -/
theorem test_sknp : left (run 0xE2A1 (withInput 0 0 (withV [(2, 0x0A)] .reset))) (fun t => t.pc) = some 0x0204 ∧
    left (run 0xE2A1 (withInput 0x0400 0 (withV [(2, 0x0A)] .reset))) (fun t => t.pc) = some 0x0202 := by decide
/-- V165, whatever the keys: no input is supplied. -/
theorem test_sknp_index : faulted (run 0xE2A1 (withV [(2, 0xFF)] .reset)) = some (.keyIndex 255) := by decide
/-- V169. -/
theorem test_ldKey_waits : left (run 0xF50A (withInput 0 0 (withV [(5, 0x77)] { State.reset with DT := 2, ST := 1 })))
    (fun t => (t.pc, t.getV 5, t.DT, t.ST, t.toneOn, t.toneStop)) = some (0x0200, 0x77, 1, 0, true, true) := by decide
/-- V170, V172. -/
theorem test_ldKey_lowest : left (run 0xF50A (withInput 0x0088 0 (withV [(5, 0x77)] .reset))) (fun t => (t.pc, t.getV 5)) =
    some (0x0202, 3) ∧ left (run 0xFF0A (withInput 0x8000 0 .reset)) (fun t => t.getV 15) = some 0x0F := by decide
/-- V173. -/
theorem test_ldFromDT : left (run 0xF307 { State.reset with DT := 9 }) (fun t => (t.getV 3, t.DT)) = some (9, 8) := by decide
/-- V175, V177. -/
theorem test_ldDT : left (run 0xF315 (withV [(3, 0x0A)] .reset)) (fun t => t.DT) = some 9 ∧
    left (run 0xF315 { State.reset with DT := 7 }) (fun t => t.DT) = some 0 := by decide
/-- V179, V180. -/
theorem test_ldST : left (run 0xF318 (withV [(3, 2)] .reset)) (fun t => (t.ST, t.toneOn, t.toneStop)) = some (1, true, false) ∧
    left (run 0xF318 (withV [(3, 1)] .reset)) (fun t => (t.ST, t.toneOn, t.toneStop)) = some (0, true, true) := by decide
/-- V181. -/
theorem test_ldST_zero : left (run 0xF318 { State.reset with ST := 5 }) (fun t => (t.ST, t.toneOn, t.toneStop)) =
    some (0, false, false) := by decide
/-- V185. -/
theorem test_nop0 : left (run 0x0001 (withLit [(0, 0)] (withV [(0, 9)] .reset))) (fun t => (t.pc, t.getV 0, t.pixel 0 0)) =
    some (0x0202, 9, true) := by decide
/-- V182. -/
theorem test_nop8 : left (run 0x8008 { State.reset with DT := 3 }) (fun t => (t.pc, t.DT)) = some (0x0202, 2) := by decide
/-- V168. -/
theorem test_nopE : left (run 0xE200 (withV [(2, 0xFF)] .reset)) (fun t => (t.pc, t.getV 2)) = some (0x0202, 0xFF) := by decide
/-- V183. -/
theorem test_nopF : left (run 0xF300 (withV [(3, 9)] { State.reset with DT := 1, ST := 1 }))
    (fun t => (t.pc, t.getV 3, t.DT, t.ST, t.toneOn, t.toneStop)) = some (0x0202, 9, 0, 0, true, true) := by decide

/-! ### Load, reset, the host's requests (2.7) -/

/-- V203. -/
theorem test_load : ((loadProgram [0x12, 0x00] (withV [(3, 9)] (storeBytes 0x200 [0xAA, 0xBB, 0xCC, 0xDD]
      { State.reset with pc := 0x0300 }))).toOption.map fun t => ([0x200, 0x201, 0x202, 0x203].map t.readByte, t.pc, t.getV 3)) =
    some ([0x12, 0x00, 0xCC, 0xDD], 0x0300, 9) := by decide
/-- V202. -/
theorem test_load_too_large : (serve (.loadProgram (List.replicate 3585 0)) .reset).2 = .loadError 6 3585 := by
  simp only [serve, loadProgram, List.length_replicate, Config.progMax, LoadError.code, LoadError.info, gt_iff_lt, Nat.reduceLT, if_true]
/-- V204. -/
theorem test_reset : (let t := hostReset (withV [(1, 7)] (storeBytes 0x050 [0x00] { State.reset with pc := 0x0456, sp := 3, DT := 9 }))
    (t.pc, t.sp, t.DT, t.getV 1, t.readByte 0x050, t.readByte 0x200)) = (0x0200, 0, 0, 0, 0xF0, 0) := by decide
/-- V7, R161: the codes the host sees, the state unchanged. -/
theorem test_serve_fault : (serve (.step ⟨0, 0⟩) (storeBytes 0x200 [0x22, 0x00] { State.reset with sp := 16 })).2 = .stepFault 3 0 := by
  decide
/-- Writing the reset contents removes the entry: the memory is canonical again. -/
theorem test_memory_canonical : (((State.reset.writeByte 0x300 5).writeByte 0x050 0).writeByte 0x300 0).mem = [(0x050, 0)] ∧
    (State.reset.writeByte 0x050 0xF0).mem = [] := by decide

/-! ### Witnesses: states and operands that meet the hypotheses of each obligation, at the ends of their ranges -/

theorem witness_DecodeOfEncode : (Instr.drw 15 15 15).wf = true ∧ (Instr.nop0 0xFFF).wf = true ∧ (Instr.nop8 0x00D).wf = true ∧
    (Instr.nopE 0x000).wf = true ∧ (Instr.nopF 0x000).wf = true := by decide

/-- For clause 2 of `DecodeFollowsTable` and for every `picks`: a word of each row. -/
theorem witness_picks_DecodeFollowsTable : ∀ r ∈ opcodeRows, r.bits &&& r.mask = r.bits ∧ r.matches r.bits = true := by decide

theorem witness_TwoLevelDecode : (famOf 0x1ABC = famOf 0x1000 ∧ famOf 0x1ABC ∉ [0x0, 0x8, 0xE, 0xF]) ∧
    (famOf 0x8125 = famOf 0x8FF5 ∧ famOf 0x8125 ∈ [0x0, 0x8, 0xE] ∧ nOf 0x8125 = nOf 0x8FF5) ∧
    (famOf 0xF107 = 0xF ∧ famOf 0xFE07 = 0xF ∧ kkOf 0xF107 = kkOf 0xFE07) := by decide

theorem witness_unassigned : unassigned 0x0001 ∧ unassigned 0x0FFF ∧ unassigned 0x8008 ∧ unassigned 0x8FFF ∧ unassigned 0xE000 ∧
    unassigned 0xEFFF ∧ unassigned 0xF000 ∧ unassigned 0xFFFF := by
  refine ⟨?_, ?_, ?_, ?_, ?_, ?_, ?_, ?_⟩ <;> unfold unassigned <;> decide

theorem witness_AliasesDecode : (famOf 0x0FF0 = 0x0 ∧ nOf 0x0FF0 = 0x0) ∧ (famOf 0x0FFE = 0x0 ∧ nOf 0x0FFE = 0xE) ∧ famOf 0x512F = 0x5 ∧
    famOf 0x912F = 0x9 ∧ (famOf 0xE2FE = 0xE ∧ nOf 0xE2FE = 0xE) ∧ (famOf 0xE201 = 0xE ∧ nOf 0xE201 = 0x1) := by decide

/-- The last address an instruction can be fetched from, with a word there. -/
def atEnd : State := storeBytes 4094 [0x61, 0x77] { State.reset with pc := 4094 }

theorem witness_FetchIsBigEndian : atEnd.pc.toNat < 4095 := by decide

theorem witness_FetchFaultExactly : 4095 ≤ ({ State.reset with pc := 4095 } : State).pc.toNat ∧
    4095 ≤ ({ State.reset with pc := 4096 } : State).pc.toNat ∧ 4095 ≤ ({ State.reset with pc := 0xFFFF } : State).pc.toNat := by decide

theorem witness_StepRunsDecodedInstruction : atEnd.pc.toNat < 4095 ∧
    decode [atEnd.readByte atEnd.pc.toNat, atEnd.readByte (atEnd.pc.toNat + 1)] = .ok (.ldI 1 0x77, []) := by decide

/-- For every obligation about a step that ends in a next state, or a state whose fetch succeeds. -/
theorem witness_step_next : ∃ t op, step atEnd = .next t ∧ fetch atEnd = .ok op := ⟨_, _, rfl, rfl⟩

theorem witness_NoOpOnlyAdvancesAndTicks : ∃ op, fetch (State.reset.withFetchWord 16 0xF0FF) = .ok op ∧ unassigned op :=
  ⟨0xF0FF, rfl, by unfold unassigned; decide⟩

/-- For `RetPopsOrUnderflows` and `CallPushesOrOverflows`: the ends of `sp`'s range. -/
theorem witness_stack : (({ State.reset with sp := 1 } : State).sp.val ≠ 0) ∧ (({ State.reset with sp := 16 } : State).sp.val ≠ 0) ∧
    State.reset.sp.val = 0 ∧ State.reset.sp.val < 16 ∧ (({ State.reset with sp := 15 } : State).sp.val < 16) ∧
    (({ State.reset with sp := 16 } : State).sp.val = 16) := by decide

/-- The state `v` of the round trip of `CallPushesOrOverflows`. -/
theorem witness_call_return : ∃ t v : State, exec (.call 0x300) State.reset = .next t ∧ v.stack = t.stack ∧ v.sp = t.sp := ⟨_, _, rfl, rfl, rfl⟩

theorem witness_JpSetsPc : fetch (State.reset.withFetchWord 16 0x1200) = .ok (encodeWord (.jp 0x200)) ∧
    (State.reset.withFetchWord 16 0x1200).pc.toNat = (0x200 : Addr).toNat := by decide

/-- `x ≠ 15`, `r ≠ 15`, `y ≠ 15`. -/
theorem witness_not_flag : (0 : Reg) ≠ 15 ∧ (14 : Reg) ≠ 15 := by decide

/-- For `BcdStoresDigits`: the last good and the first bad `I`, and the largest. -/
theorem witness_BcdStoresDigits : (({ State.reset with I := 4093 } : State).I.toNat + 2 < 4096) ∧
    (4096 ≤ ({ State.reset with I := 4094 } : State).I.toNat + 2) ∧ (4096 ≤ ({ State.reset with I := 0xFFFF } : State).I.toNat + 2) := by
  decide

/-- For `StoreRegistersAtIndex` and `LoadRegistersFromIndex`: both ends of `x`, good and bad, and a register on either side of `x`. -/
theorem witness_register_blocks : (({ State.reset with I := 4095 } : State).I.toNat + (0 : Reg).toNat < 4096) ∧
    (({ State.reset with I := 4080 } : State).I.toNat + (15 : Reg).toNat < 4096) ∧
    (4096 ≤ ({ State.reset with I := 4095 } : State).I.toNat + (1 : Reg).toNat) ∧
    (4096 ≤ ({ State.reset with I := 4096 } : State).I.toNat + (0 : Reg).toNat) ∧
    (15 : Reg).toNat ≤ (15 : Reg).toNat ∧ (0 : Reg).toNat < (1 : Reg).toNat := by decide

/-- The state `v` of the round trip of `StoreRegistersAtIndex`: what the store leaves. -/
theorem witness_store_load : ∃ t v : State, exec (.ldMem 2) { State.reset with I := 0x300 } = .next t ∧ v.I = 0x300 ∧ sameMem t v :=
  ⟨_, _, rfl, rfl, fun _ => rfl⟩

theorem witness_ClsClears : ∃ t u : State, exec .cls State.reset = .next t ∧ exec (.drw 0 1 15) t = .next u ∧ 31 < 32 ∧ 63 < 64 :=
  ⟨_, _, rfl, rfl, by decide, by decide⟩

/-- For `DrwXorsSprite`: no row with `I` out of range, the last good `I`, the first bad one; a row and a bit inside the framebuffer. -/
theorem witness_DrwXorsSprite : ((0 : Nibble).toNat = 0 ∨ ({ State.reset with I := 0xFFFF } : State).I.toNat + (0 : Nibble).toNat ≤ 4096) ∧
    ((15 : Nibble).toNat = 0 ∨ ({ State.reset with I := 4081 } : State).I.toNat + (15 : Nibble).toNat ≤ 4096) ∧
    ((15 : Nibble).toNat ≠ 0 ∧ 4096 < ({ State.reset with I := 4082 } : State).I.toNat + (15 : Nibble).toNat) ∧
    (14 < (15 : Nibble).toNat ∧ 7 < 8 ∧ (State.reset.getV 1).toNat % 32 + 14 < 32 ∧ (State.reset.getV 0).toNat % 64 + 7 < 64) := by decide

/-- A pixel no bit of the sprite reaches, for the frame clause of `DrwXorsSprite`. -/
theorem witness_pixel_outside_sprite : ∀ k j : Nat, k < (15 : Nibble).toNat → j < 8 →
    ¬ (31 = (State.reset.getV 1).toNat % 32 + k ∧ 63 = (State.reset.getV 0).toNat % 64 + j) := by
  rintro k j _ hj ⟨_, h⟩
  have : (State.reset.getV 0).toNat = 0 := by decide
  omega

theorem witness_DrawTwiceRestores : ∃ t u : State, exec (.drw 0 1 5) { State.reset with I := 0x050 } = .next t ∧
    exec (.drw 0 1 5) t = .next u ∧ t.getV 15 = 0 ∧ (0 : Reg) ≠ 15 ∧ (1 : Reg) ≠ 15 := ⟨_, _, rfl, rfl, by decide, by decide, by decide⟩

/-- The premise of the middle clause of `DrawTwiceRestores`: a sprite with no row. -/
theorem witness_empty_sprite : ∃ t u : State, exec (.drw 0 1 0) State.reset = .next t ∧ exec (.drw 0 1 0) t = .next u ∧
    t.fb = State.reset.fb := by
  refine ⟨State.reset.drawSprite 0 0 0, _, rfl, rfl, State.fb_ext fun r c => ?_⟩
  have h : State.reset.spriteAt 0 0 0 r c = false := by
    rw [Bool.eq_false_iff]
    intro h
    obtain ⟨k, _, hk, _⟩ := (spriteAt_iff _ _ _ _ _ _).1 h
    omega
  rw [pixel_drawSprite, h, Bool.false_and, Bool.xor_false]

theorem witness_KeySkips : ((withV [(2, 15)] .reset).getV 2).toNat ≤ 15 ∧ (State.reset.getV 2).toNat ≤ 15 ∧
    15 < ((withV [(2, 16)] .reset).getV 2).toNat ∧ 15 < ((withV [(2, 255)] .reset).getV 2).toNat := by decide

theorem witness_KeyWaitTakesLowest :
    (({ State.reset with key := 0x8000 } : State).key.getLsbD 15 = true ∧
      ∀ j < 15, ({ State.reset with key := 0x8000 } : State).key.getLsbD j = false) ∧
    (({ State.reset with key := 0xFFFF } : State).key.getLsbD 0 = true ∧
      ∀ j < 0, ({ State.reset with key := 0xFFFF } : State).key.getLsbD j = false) ∧
    (∀ k < 16, State.reset.key.getLsbD k = false) := by decide

theorem witness_key_wait_step :
    (∃ op, fetch ((withInput 0 0 .reset).withFetchWord 16 0xF50A) = .ok op ∧ decodeWord op = .ldKey 5 ∧
      ∀ k < 16, ((withInput 0 0 .reset).withFetchWord 16 0xF50A).nextInput.keys.getLsbD k = false) ∧
    (∃ op, fetch ((withInput 0x8000 0 .reset).withFetchWord 16 0xF50A) = .ok op ∧ decodeWord op = .ldKey 5 ∧
      ∃ k < 16, ((withInput 0x8000 0 .reset).withFetchWord 16 0xF50A).nextInput.keys.getLsbD k = true) :=
  ⟨⟨0xF50A, by decide, by decide, by decide⟩, ⟨0xF50A, by decide, by decide, by decide⟩⟩

/-- For `EveryWordExecutes`: a word that meets no cause, also where another would. -/
theorem witness_EveryWordExecutes : faultOf (decodeWord 0xF055) { State.reset with I := 4095 } = none ∧
    faultOf (decodeWord 0x2300) { State.reset with sp := 15 } = none ∧ faultOf (decodeWord 0xE29E) State.reset = none := by decide

/-- For `FaultChangesNothing` and `IgnoredFaultRepeats`. -/
theorem witness_faulting_step : ∃ t, serve (.step ⟨0xFFFF, 0xFF⟩) { State.reset with pc := 0x10FE } = (t, .stepFault 1 0x10FE) := ⟨_, rfl⟩

theorem witness_InputsReachOnlyTheirReaders : readsKeys (.rnd 1 0xFF) = false ∧ readsRandom (.skp 1) = false ∧
    readsKeys (.drw 0 1 5) = false ∧ readsRandom (.drw 0 1 5) = false := by decide

/-- For `OnlyListedRegistersWritten` and `OnlyListedStateWritten`: an instruction that meets the premises of all clauses. -/
theorem witness_exec_next : ∃ t, exec (.ldMem 15) State.reset = .next t ∧ writesIndex (.ldMem 15) = false ∧ writesPc (.ldMem 15) = false ∧
    (∀ nnn, Instr.ldMem 15 ≠ .call nnn) ∧ Instr.ldMem 15 ≠ .ret ∧ (∀ x, Instr.ldMem 15 ≠ .ldDT x) ∧ (∀ x, Instr.ldMem 15 ≠ .ldST x) ∧
    Instr.ldMem 15 ≠ .cls ∧ ∀ x y n, Instr.ldMem 15 ≠ .drw x y n := by
  refine ⟨_, rfl, rfl, rfl, ?_, ?_, ?_, ?_, ?_, ?_⟩ <;> intros <;> intro h <;> cases h

theorem witness_FetchSeesStore : (∃ t, exec (.ldMem 15) { State.reset with I := 0x300, pc := 0x30E } = .next t) ∧
    (({ State.reset with I := 0x300, pc := 0x30E } : State).I.toNat + (14 : Reg).toNat = 0x30E) ∧ (14 : Reg).toNat + 1 ≤ (15 : Reg).toNat :=
  ⟨⟨_, rfl⟩, by decide, by decide⟩

/-- For `StepKeepsMemoryForm`, `StepKeepsPcBound`, `RequestsKeepInvariants`: memory with an entry, a pushed address, `pc` at its end. -/
theorem witness_invariants : ({ atEnd with sp := 16, stack := State.reset.stack.set 15 4096 } : State).memWf ∧
    ({ atEnd with sp := 16, stack := State.reset.stack.set 15 4096 } : State).pcBounded := by
  refine ⟨?_, ?_, ?_⟩ <;> decide

theorem witness_invariants_step : ∃ t, step { atEnd with sp := 16, stack := State.reset.stack.set 15 4096 } = .next t := ⟨_, rfl⟩

/-- For `HostSeesOnlyCoreState`: two states that differ beside the core's state. -/
theorem witness_HostSeesOnlyCoreState :
    State.reset.toCoreState = ({ State.reset with key := 0xFFFF, draws := 7, toneOn := true } : State).toCoreState ∧
    State.reset.font = ({ State.reset with key := 0xFFFF, draws := 7, toneOn := true } : State).font ∧
    State.reset ≠ { State.reset with key := 0xFFFF, draws := 7, toneOn := true } :=
  ⟨rfl, rfl, fun h => absurd (congrArg State.draws h) (by decide)⟩

theorem witness_LoadCopiesOrRejects : (List.replicate 3584 (0xAA : Byte)).length ≤ 3584 ∧ 3584 < (List.replicate 3585 (0xAA : Byte)).length ∧
    ([] : List Byte).length ≤ 3584 := by simp only [List.length_replicate, List.length_nil]; omega

theorem witness_load_then_fetch : ∃ t op, loadProgram [0x12] .reset = .ok t ∧ State.reset.pc.toNat = 0x200 ∧ fetch t = .ok op :=
  ⟨_, _, rfl, by decide, rfl⟩

theorem witness_BootFetchesFirstWord : ∃ t, loadProgram [0x12, 0x00] (hostReset .reset) = .ok t := ⟨_, rfl⟩

theorem witness_ZeroedMemoryClears : ({ State.reset with pc := 4094 } : State).pc.toNat < 4095 ∧
    ({ State.reset with pc := 4094 } : State).readByte 4094 = 0 ∧ ({ State.reset with pc := 4094 } : State).readByte 4095 = 0 := by decide

theorem witness_GlyphOfDigit : (15 : Byte).toNat < 16 ∧ 5 * (15 : Byte).toNat + 4 < 80 ∧ 4 < 5 ∧ (0 : Byte).toNat < 16 := by decide

end Sys2Proof.Tests
end

section
/-! PROOFS. What `hostReset` leaves: the reset values of 10_state.md R37, by field and as the accessors see them. -/

namespace Sys2Proof.Machine

variable (s : State)

/-! ### The fields after reset -/

@[simp] theorem hostReset_mem : (hostReset s).mem = [] := rfl
@[simp] theorem hostReset_V : (hostReset s).V = Vector.replicate 16 0 := rfl
@[simp] theorem hostReset_I : (hostReset s).I = 0 := rfl
@[simp] theorem hostReset_pc : (hostReset s).pc = 0x0200 := rfl
@[simp] theorem hostReset_stack : (hostReset s).stack = Vector.replicate Config.stackDepth 0 := rfl
@[simp] theorem hostReset_sp : (hostReset s).sp = 0 := rfl
@[simp] theorem hostReset_DT : (hostReset s).DT = 0 := rfl
@[simp] theorem hostReset_ST : (hostReset s).ST = 0 := rfl
@[simp] theorem hostReset_fb :
    (hostReset s).fb = Vector.replicate Config.fbHeight (Vector.replicate Config.fbWidth false) := rfl
@[simp] theorem hostReset_font : (hostReset s).font = s.font := rfl

/-! ### The accessors after reset -/

/-- Nothing is listed after reset, so every address reads as the reset contents. -/
@[simp] theorem readByte_hostReset (a : Nat) : (hostReset s).readByte a = resetByte s.font a := rfl

/-- Every general register is 0 after reset. -/
@[simp] theorem getV_hostReset (r : Reg) : (hostReset s).getV r = 0 := by
  simp only [State.getV, hostReset_V, Vector.getElem_replicate]

/-- Every stack entry is 0 after reset, the unused ones too. -/
theorem stack_hostReset (k : Nat) (h : k < 16) : (hostReset s).stack[k] = 0 := by
  simp only [hostReset_stack, Vector.getElem_replicate]

/-- Every pixel is dark after reset. -/
@[simp] theorem pixel_hostReset (r c : Nat) : (hostReset s).pixel r c = false := by
  unfold State.pixel
  split
  · simp only [hostReset_fb, Vector.getElem_replicate]
  · rfl

/-- The state of construction is a fixed point of reset (R190). -/
@[simp] theorem hostReset_reset : hostReset State.reset = State.reset := rfl

/-- Settles O49: the fields by their reset values, and memory, with nothing listed, by the two ranges of the reset contents. -/
theorem resetValues : Obligations.ResetValues := by
  refine ⟨fun s => ⟨hostReset_pc s, hostReset_I s, hostReset_sp s, hostReset_DT s, hostReset_ST s, getV_hostReset s,
    stack_hostReset s, pixel_hostReset s, ?font, ?zero⟩, hostReset_reset.symm⟩
  case font =>
    intro k h
    rw [readByte_hostReset]
    exact resetByte_font s.font k h
  case zero =>
    intro a h
    rw [readByte_hostReset]
    exact resetByte_zero s.font a h

end Sys2Proof.Machine
end

section
/-! PROOFS. The faults of phase 3, said once for every instruction, and the fetch fault, which no phase 3 raises. -/

namespace Sys2Proof.Machine

/-! ### The outcome of phase 3 and the listed fault (60_exceptions.md R161, R171) -/

/-- How an outcome answers a listed fault: with that fault, or, where none is listed, with a next state. -/
inductive FaultsAs : Outcome → Option Fault → Prop where
  | next (t : State) : FaultsAs (.next t) none
  | fault (f : Fault) : FaultsAs (.fault f) (some f)

theorem FaultsAs.fault_iff {o : Outcome} {c : Option Fault} (h : FaultsAs o c) (f : Fault) : o = .fault f ↔ c = some f := by
  cases h with
  | next t => simp
  | fault g => simp

theorem popReturn_faultsAs (s : State) :
    FaultsAs (popReturn s) (if s.sp.val = 0 then some .stackUnderflow else none) := by
  by_cases h : s.sp.val = 0
  · rw [if_pos h, popReturn_empty h]
    exact .fault _
  · rw [if_neg h, popReturn_ok h (sp_pred_lt s)]
    exact .next _

theorem pushAndJump_faultsAs (s : State) (p : Word) :
    FaultsAs (pushAndJump s p) (if s.sp.val = 16 then some .stackOverflow else none) := by
  have depth : Config.stackDepth = 16 := rfl
  by_cases h : s.sp.val = 16
  · rw [if_pos h, pushAndJump_full (by omega)]
    exact .fault _
  · have := s.sp.isLt
    rw [if_neg h, pushAndJump_ok (by omega)]
    exact .next _

theorem skipOnKey_faultsAs (x : Reg) (pressed : Bool) (s : State) :
    FaultsAs (skipOnKey x pressed s) (if 15 < (s.getV x).toNat then some (.keyIndex (s.getV x)) else none) := by
  unfold skipOnKey
  by_cases h : 15 < (s.getV x).toNat
  · rw [if_pos h, if_pos h]
    exact .fault _
  · rw [if_neg h, if_neg h]
    exact .next _

theorem accessing_faultsAs (s : State) (len : Nat) (t : State) :
    FaultsAs (accessing s len t) (if len ≠ 0 ∧ 4096 < s.I.toNat + len then some (.dataRange (max s.I.toNat 4096)) else none) := by
  rcases accessing_cases s len t with ⟨e, hr⟩ | ⟨e, hr⟩
  · rw [e, if_neg (by omega)]
    exact .next _
  · rw [e, if_pos hr]
    exact .fault _

/-- Phase 3 faults as listed: one shared operation for each cause, and nothing else faults. -/
theorem exec_faultsAs (i : Instr) (s : State) : FaultsAs (exec i s) (faultOf i s) := by
  cases i
  case ret => exact popReturn_faultsAs s
  case call nnn => exact pushAndJump_faultsAs s (zextAddr nnn)
  case skp x => exact skipOnKey_faultsAs x true s
  case sknp x => exact skipOnKey_faultsAs x false s
  case drw x y n => exact accessing_faultsAs s n.toNat _
  case ldBcd x => exact accessing_faultsAs s 3 _
  case ldMem x => exact accessing_faultsAs s (x.toNat + 1) _
  case ldRegs x => exact accessing_faultsAs s (x.toNat + 1) _
  all_goals exact .next _

/-! ### The fetch fault (20_memory.md R54) -/

/-- The fetch fault belongs to phase 1: it is the listed fault of no instruction. -/
theorem faultOf_ne_fetchRange (i : Instr) (s : State) (a : Nat) : faultOf i s ≠ some (.fetchRange a) := by
  intro h
  unfold faultOf at h
  split at h <;> split at h <;> cases h

theorem exec_ne_fetchRange (i : Instr) (s : State) (a : Nat) : exec i s ≠ .fault (.fetchRange a) := fun h =>
  faultOf_ne_fetchRange i s a (((exec_faultsAs i s).fault_iff _).1 h)

/-- A step with no fetchable word at `pc` ends in the fetch fault. -/
theorem step_of_pc_ge {s : State} (h : 4095 ≤ s.pc.toNat) : step s = .fault (.fetchRange (max s.pc.toNat 4096)) := by
  unfold step
  rw [fetch_error h]
  rfl

theorem step_fetchRange_iff (s : State) (a : Nat) :
    step s = .fault (.fetchRange a) ↔ 4095 ≤ s.pc.toNat ∧ a = max s.pc.toNat 4096 := by
  constructor
  · intro h
    rcases step_eq s with ⟨hpc, e⟩ | ⟨op, _, e⟩ <;> rw [e] at h
    · cases h
      exact ⟨hpc, rfl⟩
    · exact absurd (finishStep_fault h) (exec_ne_fetchRange _ _ a)
  · rintro ⟨hpc, rfl⟩
    exact step_of_pc_ge hpc

/-- The host's answer to a step that faults: the state before it, and the fault's code and info (R166). -/
theorem serve_step_of_fault {inp : StepInput} {s : State} {f : Fault} (h : stepWith inp s = .fault f) :
    serve (.step inp) s = (s, .stepFault f.code f.info) := by
  simp only [serve, h]

/-- Settles O8: `fetch_ok`, and the fetch fault, which no phase 3 raises; its address is a maximum, spelled out here by cases. -/
theorem fetchFaultExactly : Obligations.FetchFaultExactly := by
  refine ⟨fun s h => fetch_ok h, fun s a => ?step, fun s inp h => ?host⟩
  case step => rw [← max_def']; exact step_fetchRange_iff s a
  case host => rw [← max_def']; exact serve_step_of_fault (step_of_pc_ge h)

/-! ### The byte order of the fetch (20_memory.md R52) -/

theorem wordOfBytes_toNat (hi lo : Byte) : (wordOfBytes hi lo).toNat = 256 * hi.toNat + lo.toNat := by
  calc (wordOfBytes hi lo).toNat
      = hi.toNat <<< 8 ||| lo.toNat := BitVec.toNat_append hi lo
    _ = hi.toNat <<< 8 + lo.toNat := (Nat.shiftLeft_add_eq_or_of_lt lo.isLt _).symm
    _ = 256 * hi.toNat + lo.toNat := by rw [Nat.shiftLeft_eq]; omega

/-- Settles O7: the fetched word is made of the two bytes, whose concatenation is big-endian. -/
theorem fetchIsBigEndian : Obligations.FetchIsBigEndian :=
  fun _ h => ⟨_, fetch_ok h, wordOfBytes_toNat _ _⟩

end Sys2Proof.Machine
end

section
/-! PROOFS. The two levels of the decode (30_encoding.md R73 to R75): which fields of a word select its row, and that the codes no row
of R76 selects do nothing (R78). -/

namespace Sys2Proof.Machine

/-! ### Level 2: the secondary code selects the row (R74, R75) -/

theorem rowOf_decode0_congr {op op' : Word} (h : nOf op = nOf op') : rowOf (decode0 op) = rowOf (decode0 op') := by
  unfold decode0
  rw [h]
  split <;> rfl

theorem rowOf_decode8_congr {op op' : Word} (h : nOf op = nOf op') : rowOf (decode8 op) = rowOf (decode8 op') := by
  unfold decode8
  rw [h]
  split <;> rfl

theorem rowOf_decodeE_congr {op op' : Word} (h : nOf op = nOf op') : rowOf (decodeE op) = rowOf (decodeE op') := by
  unfold decodeE
  rw [h]
  split <;> rfl

theorem rowOf_decodeF_congr {op op' : Word} (h : kkOf op = kkOf op') : rowOf (decodeF op) = rowOf (decodeF op') := by
  unfold decodeF
  rw [h]
  split <;> rfl

/-! ### Level 1: the family selects the row, or one of four level-2 tables (R73) -/

/-- Two words of one family have the same row, if they have it in the level-2 table the family leads to, where it leads to one. -/
theorem rowOf_decodeWord_congr {op op' : Word} (hfam : famOf op = famOf op')
    (h0 : famOf op = 0x0 → rowOf (decode0 op) = rowOf (decode0 op'))
    (h8 : famOf op = 0x8 → rowOf (decode8 op) = rowOf (decode8 op'))
    (hE : famOf op = 0xE → rowOf (decodeE op) = rowOf (decodeE op'))
    (hF : famOf op = 0xF → rowOf (decodeF op) = rowOf (decodeF op')) :
    rowOf (decodeWord op) = rowOf (decodeWord op') := by
  rw [hfam] at h0 h8 hE hF
  unfold decodeWord
  rw [hfam]
  split
  case h_1 h => exact h0 h
  case h_9 h => exact h8 h
  case h_15 h => exact hE h
  case h_16 =>
    have hcases := nibble_cases (famOf op')
    exact hF (by simp_all)
  all_goals rfl

/-! ### The unassigned codes (R78, R95) -/

theorem not_mem_assigned0 : ∀ n : Nibble,
    n ∈ [0x1, 0x2, 0x3, 0x4, 0x5, 0x6, 0x7, 0x8, 0x9, 0xA, 0xB, 0xC, 0xD, 0xF] → n ∉ assigned0 := by decide

theorem not_mem_assigned8 : ∀ n : Nibble, n ∈ [0x8, 0x9, 0xA, 0xB, 0xC, 0xD, 0xF] → n ∉ assigned8 := by decide

theorem not_mem_assignedE : ∀ n : Nibble,
    n ∈ [0x0, 0x2, 0x3, 0x4, 0x5, 0x6, 0x7, 0x8, 0x9, 0xA, 0xB, 0xC, 0xD, 0xF] → n ∉ assignedE := by decide

/-- An unassigned code decodes to the no-op row of its family. -/
theorem isNoOp_of_unassigned {op : Word} (h : unassigned op) : isNoOp (decodeWord op) = true := by
  obtain ⟨fam0, -, -, -, -, -, -, -, fam8, -, -, -, -, -, famE, famF⟩ := decodeWord_fam op
  rcases h with ⟨hf, hn⟩ | ⟨hf, hn⟩ | ⟨hf, hn⟩ | ⟨hf, hk⟩
  · rw [fam0 hf, decode0_unassigned (not_mem_assigned0 _ hn)]
    rfl
  · rw [fam8 hf, decode8_unassigned (not_mem_assigned8 _ hn)]
    rfl
  · rw [famE hf, decodeE_unassigned (not_mem_assignedE _ hn)]
    rfl
  · rw [famF hf, decodeF_unassigned hk]
    rfl

/-- Phase 3 of a no-op row ends in the state it started from (R95). -/
theorem exec_of_isNoOp {i : Instr} (h : isNoOp i = true) (s : State) : exec i s = .next s := by
  cases i
  case nop0 | nop8 | nopE | nopF => rfl
  all_goals cases h

/-- Settles O3: two words of one family differ in their row at most by the level-2 table of their family, which reads the secondary
code alone; an unassigned code is of a no-op row. -/
theorem twoLevelDecode : Obligations.TwoLevelDecode := by
  refine ⟨fun op op' hfam h => ?family, fun op op' hfam h hn => ?nibble, fun op op' hf hf' hk => ?byte,
    fun op s h => exec_of_isNoOp (isNoOp_of_unassigned h) s⟩
  case family =>
    apply rowOf_decodeWord_congr hfam <;> intro hf <;> simp [hf] at h
  case nibble =>
    refine rowOf_decodeWord_congr hfam (fun _ => rowOf_decode0_congr hn) (fun _ => rowOf_decode8_congr hn)
      (fun _ => rowOf_decodeE_congr hn) (fun hf => ?_)
    simp [hf] at h
  case byte =>
    apply rowOf_decodeWord_congr (hf.trans hf'.symm) <;> intro h
    case hF => exact rowOf_decodeF_congr hk
    all_goals simp [hf] at h

end Sys2Proof.Machine
end

section
/-! PROOFS. Phase 4 of a step (40_step_cycle.md R94): the tone outputs as facts about the sound timer's value, and what a tick leaves. -/

namespace Sys2Proof.Machine

variable (s : State)

/-! ### The tone outputs (R94) -/

theorem State.tick_toneOn_iff : s.tick.toneOn = true ↔ 0 < s.ST.toNat := by
  have zero : s.ST = 0 ↔ s.ST.toNat = 0 := BitVec.toNat_inj.symm
  rw [State.tick_toneOn, decide_eq_true_iff, ne_eq, zero, Nat.pos_iff_ne_zero]

theorem State.tick_toneStop_iff : s.tick.toneStop = true ↔ s.ST.toNat = 1 := by
  have one : s.ST = 1 ↔ s.ST.toNat = 1 := BitVec.toNat_inj.symm
  rw [State.tick_toneStop, decide_eq_true_iff, one]

/-- The tone stops only in a step in which it sounded. -/
theorem State.toneOn_of_toneStop_tick (h : s.tick.toneStop = true) : s.tick.toneOn = true := by
  have one : s.ST.toNat = 1 := s.tick_toneStop_iff.1 h
  exact s.tick_toneOn_iff.2 (by omega)

/-! ### The frame of phase 4 (R94) -/

/-- Phase 4 writes the two timers and the two tone outputs only. -/
theorem State.tick_frame :
    s.tick = { s with DT := s.tick.DT, ST := s.tick.ST, toneOn := s.tick.toneOn, toneStop := s.tick.toneStop } := rfl

/-- Settles O10: a successful step ends in the tick of what phase 3 left. -/
theorem timersTickOncePerStep : Obligations.TimersTickOncePerStep := by
  intro s t h
  obtain ⟨op, u, hfetch, hexec, rfl⟩ := step_next h
  exact ⟨op, u, hfetch, hexec, tickTimer_toNat u.DT, tickTimer_toNat u.ST, u.tick_toneOn_iff, u.tick_toneStop_iff,
    u.toneOn_of_toneStop_tick, u.tick_frame⟩

end Sys2Proof.Machine
end

section
/-! PROOFS. Control transfer (41_flow.md): the rows of jumps, calls, returns and skips, what each of them does in phase 3, the loop of a
jump to itself, and the round trip of a call and its return. -/

namespace Sys2Proof.Machine

/-! ### The rows (30_encoding.md R76) -/

theorem picks_ret : picks 0xF00F 0x000E (fun _ => .ret) := picks_F00F fun op hf hn => by
  obtain ⟨fam, -⟩ := decodeWord_fam op
  obtain ⟨-, code, -⟩ := decode0E_assigned op
  exact (fam hf).trans (code hn)

theorem picks_jp : picks 0xF000 0x1000 (fun op => .jp (nnnOf op)) := picks_F000 fun op h => by
  obtain ⟨-, fam, -⟩ := decodeWord_fam op
  exact fam h

theorem picks_call : picks 0xF000 0x2000 (fun op => .call (nnnOf op)) := picks_F000 fun op h => by
  obtain ⟨-, -, fam, -⟩ := decodeWord_fam op
  exact fam h

theorem picks_seI : picks 0xF000 0x3000 (fun op => .seI (xOf op) (kkOf op)) := picks_F000 fun op h => by
  obtain ⟨-, -, -, fam, -⟩ := decodeWord_fam op
  exact fam h

theorem picks_sneI : picks 0xF000 0x4000 (fun op => .sneI (xOf op) (kkOf op)) := picks_F000 fun op h => by
  obtain ⟨-, -, -, -, fam, -⟩ := decodeWord_fam op
  exact fam h

theorem picks_seR : picks 0xF000 0x5000 (fun op => .seR (xOf op) (yOf op)) := picks_F000 fun op h => by
  obtain ⟨-, -, -, -, -, fam, -⟩ := decodeWord_fam op
  exact fam h

theorem picks_sneR : picks 0xF000 0x9000 (fun op => .sneR (xOf op) (yOf op)) := picks_F000 fun op h => by
  obtain ⟨-, -, -, -, -, -, -, -, -, fam, -⟩ := decodeWord_fam op
  exact fam h

theorem picks_jpV0 : picks 0xF000 0xB000 (fun op => .jpV0 (nnnOf op)) := picks_F000 fun op h => by
  obtain ⟨-, -, -, -, -, -, -, -, -, -, -, fam, -⟩ := decodeWord_fam op
  exact fam h

/-! ### Phase 3 of each of them, as the shared operation it is -/

theorem exec_ret (s : State) : exec .ret s = popReturn s := rfl
theorem exec_jp (nnn : Addr) (s : State) : exec (.jp nnn) s = .next (s.jumpTo (zextAddr nnn)) := rfl
theorem exec_call (nnn : Addr) (s : State) : exec (.call nnn) s = pushAndJump s (zextAddr nnn) := rfl
theorem exec_seI (x : Reg) (kk : Byte) (s : State) : exec (.seI x kk) s = .next (s.skipIf (s.getV x == kk)) := rfl
theorem exec_sneI (x : Reg) (kk : Byte) (s : State) : exec (.sneI x kk) s = .next (s.skipIf (s.getV x != kk)) := rfl
theorem exec_seR (x y : Reg) (s : State) : exec (.seR x y) s = .next (s.skipIf (s.getV x == s.getV y)) := rfl
theorem exec_sneR (x y : Reg) (s : State) : exec (.sneR x y) s = .next (s.skipIf (s.getV x != s.getV y)) := rfl
theorem exec_jpV0 (nnn : Addr) (s : State) :
    exec (.jpV0 nnn) s = .next (s.jumpTo (zextAddr nnn + zextByte (s.getV 0))) := rfl

/-! ### JP, and its loop (R102) -/

theorem decodeWord_encodeWord_jp (nnn : Addr) : decodeWord (encodeWord (.jp nnn)) = .jp nnn := by
  obtain ⟨-, fam, -⟩ := decodeWord_fam (encNNN 0x1 nnn)
  exact (fam (famOf_encNNN ..)).trans (congrArg Instr.jp (nnnOf_encNNN ..))

/-- What one step of a jump to itself leaves: the sample taken, `pc` back where it was, and a tick. -/
def State.spun (s : State) : State := (s.sample.advance.jumpTo s.pc).tick

@[simp] theorem State.spun_pc (s : State) : s.spun.pc = s.pc := rfl
@[simp] theorem State.fetch_spun (s : State) : fetch s.spun = fetch s := fetch_congr rfl rfl rfl
@[simp] theorem State.spun_DT_toNat (s : State) : s.spun.DT.toNat = s.DT.toNat - 1 := tickTimer_toNat s.DT
@[simp] theorem State.spun_ST_toNat (s : State) : s.spun.ST.toNat = s.ST.toNat - 1 := tickTimer_toNat s.ST

theorem step_of_selfJump {nnn : Addr} {s : State} (hf : fetch s = .ok (encodeWord (.jp nnn))) (hpc : s.pc.toNat = nnn.toNat) :
    step s = .next s.spun := by
  have target : zextAddr nnn = s.pc := BitVec.eq_of_toNat_eq ((zextAddr_toNat nnn).trans hpc.symm)
  refine step_of_exec hf ?_
  rw [decodeWord_encodeWord_jp, exec_jp, target]

/-- The loop of R102: each step leaves the word at `pc` a jump to `pc`, so the run goes on, one tick a step. -/
theorem run_selfJump (nnn : Addr) (n : Nat) (s : State) (hf : fetch s = .ok (encodeWord (.jp nnn))) (hpc : s.pc.toNat = nnn.toNat) :
    ∃ t, Host.Core.run core n s = .next t ∧ t.pc = s.pc ∧ t.DT.toNat = s.DT.toNat - n ∧ t.ST.toNat = s.ST.toNat - n ∧
      sameRegsBut [] s t ∧ t.fb = s.fb ∧ sameMem s t := by
  induction n generalizing s with
  | zero => exact ⟨s, rfl, rfl, rfl, rfl, fun _ _ => rfl, rfl, fun _ => rfl⟩
  | succ n ih =>
    obtain ⟨t, hrun, htpc, hDT, hST, hregs, hfb, hmem⟩ := ih s.spun (s.fetch_spun.trans hf) hpc
    rw [State.spun_DT_toNat] at hDT
    rw [State.spun_ST_toNat] at hST
    exact ⟨t, (run_of_step (M := core) (step_of_selfJump hf hpc)).trans hrun, htpc.trans s.spun_pc, by omega, by omega, hregs, hfb,
      hmem⟩

/-- Settles O14: JP is a jump to its zero-extended address; the loop is `run_selfJump`. -/
theorem jpSetsPc : Obligations.JpSetsPc :=
  ⟨picks_jp, fun nnn s => ⟨_, exec_jp nnn s, zextAddr_toNat nnn, onlyPc_jumpTo s _⟩, run_selfJump⟩

/-! ### RET and CALL (R101, R103) -/

theorem onlyPcAndStack_set (s : State) (stack : Vector Word Config.stackDepth) (sp : Fin (Config.stackDepth + 1)) (p : Word) :
    onlyPcAndStack s { s with stack := stack, sp := sp, pc := p } :=
  ⟨fun _ _ => rfl, rfl, ⟨rfl, rfl⟩, rfl, fun _ => rfl, sameBoundary_refl s⟩

/-- RET on a stack that is not empty. -/
theorem exec_ret_pops {s : State} (h : s.sp.val ≠ 0) : ∃ t, exec .ret s = .next t ∧ t.sp.val = s.sp.val - 1 ∧
    s.stack[t.sp.val]? = some t.pc ∧ t.stack = s.stack ∧ onlyPcAndStack s t :=
  ⟨_, (exec_ret s).trans (popReturn_ok h (sp_pred_lt s)), rfl, Vector.getElem?_eq_getElem (sp_pred_lt s), rfl,
    onlyPcAndStack_set s s.stack _ _⟩

/-- Settles O13: the two branches of the pop. -/
theorem retPopsOrUnderflows : Obligations.RetPopsOrUnderflows :=
  ⟨picks_ret, fun _ h => exec_ret_pops h, fun s h => (exec_ret s).trans (popReturn_empty h)⟩

/-- CALL on a stack that is not full. -/
theorem exec_call_pushes (nnn : Addr) {s : State} (h : s.sp.val < 16) : ∃ t, exec (.call nnn) s = .next t ∧
    t.stack[s.sp.val]? = some s.pc ∧ (∀ k : Nat, k ≠ s.sp.val → t.stack[k]? = s.stack[k]?) ∧ t.sp.val = s.sp.val + 1 ∧
    t.pc.toNat = nnn.toNat ∧ onlyPcAndStack s t :=
  ⟨_, (exec_call nnn s).trans (pushAndJump_ok h _), Vector.getElem?_set_self h, fun _ hk => Vector.getElem?_set_ne h hk.symm, rfl,
    zextAddr_toNat nnn, onlyPcAndStack_set s _ _ _⟩

/-- RET undoes a push: with `sp` one above that of `s` and the `pc` of `s` on top, it goes back to that `pc` and that `sp`. -/
theorem exec_ret_of_pushed {s v : State} (hsp : v.sp.val = s.sp.val + 1) (htop : v.stack[s.sp.val]? = some s.pc) :
    ∃ w, exec .ret v = .next w ∧ w.pc = s.pc ∧ w.sp = s.sp := by
  obtain ⟨w, hw, hwsp, hwpc, -⟩ := exec_ret_pops (s := v) (by omega)
  have sp_eq : w.sp.val = s.sp.val := by omega
  rw [sp_eq, htop] at hwpc
  exact ⟨w, hw, (Option.some.inj hwpc).symm, Fin.ext sp_eq⟩

/-- Settles O15: the two branches of the push, and the round trip from what the push left on top of the stack. -/
theorem callPushesOrOverflows : Obligations.CallPushesOrOverflows := by
  refine ⟨picks_call, fun nnn s h => ?push, fun nnn s h => ?full⟩
  case push =>
    obtain ⟨t, ht, htop, hrest, hsp, hpc, hframe⟩ := exec_call_pushes nnn h
    refine ⟨t, ht, htop, hrest, hsp, hpc, hframe, fun v hstack hvsp => exec_ret_of_pushed ?_ ?_⟩
    · rw [hvsp, hsp]
    · rw [hstack, htop]
  case full =>
    have full : ¬ s.sp.val < Config.stackDepth := by rw [h]; decide
    exact (exec_call nnn s).trans (pushAndJump_full full _)

/-! ### The skips (R100, R104 to R107) -/

/-- An outcome that is a skip on `c`, told by the proposition `p` that `c` decides. -/
theorem pc_of_skipIf {o : Outcome} {s : State} {c : Bool} {p : Prop} [Decidable p] (ho : o = .next (s.skipIf c)) (hc : c = true ↔ p) :
    ∃ t, o = .next t ∧ t.pc.toNat = (if p then (s.pc.toNat + 2) % 65536 else s.pc.toNat) ∧ onlyPc s t := by
  refine ⟨_, ho, ?_, onlyPc_skipIf s c⟩
  rw [State.skipIf_pc]
  by_cases h : p
  · rw [if_pos (hc.2 h), if_pos h, add_two_toNat]
  · rw [if_neg (mt hc.1 h), if_neg h]

/-- Settles O16: both are skips, on the Boolean equality and inequality of `V[x]` and `kk`. -/
theorem immediateSkips : Obligations.ImmediateSkips :=
  ⟨picks_seI, picks_sneI, fun x kk s => pc_of_skipIf (exec_seI x kk s) beq_iff_eq,
    fun x kk s => pc_of_skipIf (exec_sneI x kk s) bne_iff_ne⟩

/-- Settles O17: both are skips, on the Boolean equality and inequality of `V[x]` and `V[y]`. -/
theorem registerSkips : Obligations.RegisterSkips :=
  ⟨picks_seR, picks_sneR, fun x y s => pc_of_skipIf (exec_seR x y s) beq_iff_eq,
    fun x y s => pc_of_skipIf (exec_sneR x y s) bne_iff_ne⟩

/-! ### JP V0 (R108) -/

/-- The sum of a 12-bit address and a byte does not wrap in 16 bits. -/
theorem zextAddr_add_zextByte_toNat (nnn : Addr) (b : Byte) : (zextAddr nnn + zextByte b).toNat = nnn.toNat + b.toNat := by
  have := nnn.isLt
  have := b.isLt
  rw [BitVec.toNat_add, zextAddr_toNat, zextByte_toNat]
  omega

/-- Settles O18: the jump's target is the sum as natural numbers, which the widths of its two terms bound. -/
theorem jpV0AddsV0 : Obligations.JpV0AddsV0 := by
  refine ⟨picks_jpV0, fun nnn s => ⟨_, exec_jpV0 nnn s, zextAddr_add_zextByte_toNat nnn _, ?bound, onlyPc_jumpTo s _⟩⟩
  case bound =>
    have := nnn.isLt
    have := (s.getV 0).isLt
    rw [State.jumpTo_pc, zextAddr_add_zextByte_toNat]
    omega

end Sys2Proof.Machine
end

section
/-! PROOFS. Register load, arithmetic, logic, shifts, random (42_alu.md): the rows, phase 3 of each as the write it is, what the two
write orders leave in the result register and in `VF` (R123), and the arithmetic of the results and the flags. -/

namespace Sys2Proof.Machine

/-! ### The rows (30_encoding.md R76) -/

theorem picks_ldI : picks 0xF000 0x6000 (fun op => .ldI (xOf op) (kkOf op)) := picks_F000 fun op h => by
  obtain ⟨-, -, -, -, -, -, fam, -⟩ := decodeWord_fam op
  exact fam h

theorem picks_addI : picks 0xF000 0x7000 (fun op => .addI (xOf op) (kkOf op)) := picks_F000 fun op h => by
  obtain ⟨-, -, -, -, -, -, -, fam, -⟩ := decodeWord_fam op
  exact fam h

theorem picks_rnd : picks 0xF000 0xC000 (fun op => .rnd (xOf op) (kkOf op)) := picks_F000 fun op h => by
  obtain ⟨-, -, -, -, -, -, -, -, -, -, -, -, fam, -⟩ := decodeWord_fam op
  exact fam h

/-- A row of family 0x8 picks by the low nibble (R74, R75). -/
theorem picks_family8 {bits : Word} {f : Word → Instr} (hbits : famOf bits = 0x8) (h : ∀ op, nOf op = nOf bits → decode8 op = f op) :
    picks 0xF00F bits f := picks_F00F fun op hf hn => by
  obtain ⟨-, -, -, -, -, -, -, -, fam, -⟩ := decodeWord_fam op
  exact (fam (hf.trans hbits)).trans (h op hn)

theorem picks_ldR : picks 0xF00F 0x8000 (fun op => .ldR (xOf op) (yOf op)) := picks_family8 rfl fun op hn => by
  obtain ⟨code, -⟩ := decode8_assigned op
  exact code hn

theorem picks_orR : picks 0xF00F 0x8001 (fun op => .orR (xOf op) (yOf op)) := picks_family8 rfl fun op hn => by
  obtain ⟨-, code, -⟩ := decode8_assigned op
  exact code hn

theorem picks_andR : picks 0xF00F 0x8002 (fun op => .andR (xOf op) (yOf op)) := picks_family8 rfl fun op hn => by
  obtain ⟨-, -, code, -⟩ := decode8_assigned op
  exact code hn

theorem picks_xorR : picks 0xF00F 0x8003 (fun op => .xorR (xOf op) (yOf op)) := picks_family8 rfl fun op hn => by
  obtain ⟨-, -, -, code, -⟩ := decode8_assigned op
  exact code hn

theorem picks_addR : picks 0xF00F 0x8004 (fun op => .addR (xOf op) (yOf op)) := picks_family8 rfl fun op hn => by
  obtain ⟨-, -, -, -, code, -⟩ := decode8_assigned op
  exact code hn

theorem picks_sub : picks 0xF00F 0x8005 (fun op => .sub (xOf op) (yOf op)) := picks_family8 rfl fun op hn => by
  obtain ⟨-, -, -, -, -, code, -⟩ := decode8_assigned op
  exact code hn

theorem picks_shr : picks 0xF00F 0x8006 (fun op => .shr (xOf op) (yOf op)) := picks_family8 rfl fun op hn => by
  obtain ⟨-, -, -, -, -, -, code, -⟩ := decode8_assigned op
  exact code hn

theorem picks_subn : picks 0xF00F 0x8007 (fun op => .subn (xOf op) (yOf op)) := picks_family8 rfl fun op hn => by
  obtain ⟨-, -, -, -, -, -, -, code, -⟩ := decode8_assigned op
  exact code hn

theorem picks_shl : picks 0xF00F 0x800E (fun op => .shl (xOf op) (yOf op)) := picks_family8 rfl fun op hn => by
  obtain ⟨-, -, -, -, -, -, -, -, code⟩ := decode8_assigned op
  exact code hn

/-! ### Phase 3 of each of them, as the write it is -/

theorem exec_ldI (x : Reg) (kk : Byte) (s : State) : exec (.ldI x kk) s = .next (s.setV x kk) := rfl
theorem exec_addI (x : Reg) (kk : Byte) (s : State) : exec (.addI x kk) s = .next (s.setV x (s.getV x + kk)) := rfl
theorem exec_ldR (x y : Reg) (s : State) : exec (.ldR x y) s = .next (s.setV x (s.getV y)) := rfl
theorem exec_rnd (x : Reg) (kk : Byte) (s : State) : exec (.rnd x kk) s = .next (s.setV x (s.rnd &&& kk)) := rfl
theorem exec_orR (x y : Reg) (s : State) : exec (.orR x y) s = .next (resultThenFlag s x (s.getV x ||| s.getV y) false) := rfl
theorem exec_andR (x y : Reg) (s : State) : exec (.andR x y) s = .next (resultThenFlag s x (s.getV x &&& s.getV y) false) := rfl
theorem exec_xorR (x y : Reg) (s : State) : exec (.xorR x y) s = .next (resultThenFlag s x (s.getV x ^^^ s.getV y) false) := rfl
theorem exec_addR (x y : Reg) (s : State) :
    exec (.addR x y) s = .next (resultThenFlag s x (s.getV x + s.getV y) (carryOut (s.getV x) (s.getV y))) := rfl
theorem exec_sub (x y : Reg) (s : State) :
    exec (.sub x y) s = .next (resultThenFlag s x (s.getV x - s.getV y) (strictlyGreater (s.getV x) (s.getV y))) := rfl
theorem exec_subn (x y : Reg) (s : State) :
    exec (.subn x y) s = .next (resultThenFlag s x (s.getV y - s.getV x) (strictlyGreater (s.getV y) (s.getV x))) := rfl
theorem exec_shr (x y : Reg) (s : State) :
    exec (.shr x y) s = .next (flagThenResult s x (s.getV x >>> 1) (lowBit (s.getV x))) := rfl
theorem exec_shl (x y : Reg) (s : State) :
    exec (.shl x y) s = .next (flagThenResult s x (s.getV x <<< 1) (highBit (s.getV x))) := rfl

/-! ### The arithmetic of the results and the flags -/

theorem toNat_sub_byte (a b : Byte) : ((a - b).toNat : Int) = (a.toNat - b.toNat : Int) % 256 := by
  have := b.isLt
  rw [BitVec.toNat_sub]
  omega

theorem toNat_shiftRight_one_byte (a : Byte) : (a >>> 1).toNat = a.toNat / 2 := by
  rw [BitVec.toNat_ushiftRight, Nat.shiftRight_eq_div_pow, pow_one]

theorem toNat_shiftLeft_one_byte (a : Byte) : (a <<< 1).toNat = (2 * a.toNat) % 256 := by
  rw [BitVec.toNat_shiftLeft, Nat.shiftLeft_eq, pow_one, Nat.mul_comm]

theorem flagByte_carryOut (a b : Byte) : (flagByte (carryOut a b)).toNat = if a.toNat + b.toNat > 255 then 1 else 0 := by
  simp only [flagByte_toNat, carryOut, decide_eq_true_iff]

theorem flagByte_strictlyGreater (a b : Byte) : (flagByte (strictlyGreater a b)).toNat = if a.toNat > b.toNat then 1 else 0 := by
  simp only [flagByte_toNat, strictlyGreater, decide_eq_true_iff]

/-! ### The two write orders (R123): the last write wins where `x = 15` -/

/-- An outcome that writes a result and then the flag: `VF` holds the flag, and `V[x]` the result unless it is `VF`. -/
theorem ends_of_resultThenFlag {o : Outcome} {s : State} {x : Reg} {res : Byte} {f : Bool} (ho : o = .next (resultThenFlag s x res f)) :
    ∃ t, o = .next t ∧ (x ≠ 15 → t.getV x = res) ∧ t.getV 15 = flagByte f ∧ onlyRegs [x, 15] s t := by
  refine ⟨_, ho, fun hx => ?result, ?flag, onlyRegs_resultThenFlag s x res f⟩
  case result => rw [getV_resultThenFlag, flagReg_eq, if_neg hx, if_pos rfl]
  case flag => rw [getV_resultThenFlag, flagReg_eq, if_pos rfl]

/-- An outcome that writes the flag and then a result: `V[x]` holds the result, and `VF` the flag unless it is `V[x]`. -/
theorem ends_of_flagThenResult {o : Outcome} {s : State} {x : Reg} {res : Byte} {f : Bool} (ho : o = .next (flagThenResult s x res f)) :
    ∃ t, o = .next t ∧ t.getV x = res ∧ (x ≠ 15 → t.getV 15 = flagByte f) ∧ onlyRegs [x, 15] s t := by
  refine ⟨_, ho, ?result, fun hx => ?flag, onlyRegs_flagThenResult s x res f⟩
  case result => rw [getV_flagThenResult, if_pos rfl]
  case flag => rw [getV_flagThenResult, flagReg_eq, if_neg hx.symm, if_pos rfl]

/-- SUB and SUBN are one subtraction, of the operands in the two orders (R118, R120). -/
theorem ends_of_subtraction {o : Outcome} {s : State} {x : Reg} {a b : Byte}
    (ho : o = .next (resultThenFlag s x (a - b) (strictlyGreater a b))) :
    ∃ t, o = .next t ∧ (x ≠ 15 → ((t.getV x).toNat : Int) = (a.toNat - b.toNat : Int) % 256) ∧
      (t.getV 15).toNat = (if a.toNat > b.toNat then 1 else 0) ∧ onlyRegs [x, 15] s t := by
  obtain ⟨t, ht, hresult, hflag, hframe⟩ := ends_of_resultThenFlag ho
  refine ⟨t, ht, fun hx => ?_, ?_, hframe⟩
  · rw [hresult hx, toNat_sub_byte]
  · rw [hflag, flagByte_strictlyGreater]

/-- Settles O19: each is one register write. -/
theorem loadsAndAddImmediate : Obligations.LoadsAndAddImmediate := by
  refine ⟨picks_ldI, picks_addI, picks_ldR, fun x kk s => ⟨_, exec_ldI x kk s, s.getV_setV_self x kk, onlyRegs_setV s x kk⟩,
    fun x kk s => ⟨_, exec_addI x kk s, ?sum, onlyRegs_setV s x _⟩,
    fun x y s => ⟨_, exec_ldR x y s, s.getV_setV_self x _, onlyRegs_setV s x _⟩⟩
  case sum => rw [State.getV_setV_self, BitVec.toNat_add]

/-- Settles O20: each writes its result and then the flag, which is always clear. -/
theorem logicClearsFlag : Obligations.LogicClearsFlag :=
  ⟨picks_orR, picks_andR, picks_xorR, fun x y s => ends_of_resultThenFlag (exec_orR x y s),
    fun x y s => ends_of_resultThenFlag (exec_andR x y s), fun x y s => ends_of_resultThenFlag (exec_xorR x y s)⟩

/-- Settles O21: the sum is written first, the carry last. -/
theorem addReportsCarry : Obligations.AddReportsCarry := by
  refine ⟨picks_addR, fun x y s => ?_⟩
  obtain ⟨t, ht, hresult, hflag, hframe⟩ := ends_of_resultThenFlag (exec_addR x y s)
  refine ⟨t, ht, fun hx => ?_, ?_, hframe⟩
  · rw [hresult hx, BitVec.toNat_add]
  · rw [hflag, flagByte_carryOut]

/-- Settles O22: the minuend is `V[x]` in SUB and `V[y]` in SUBN. -/
theorem subtractsReportStrictOrder : Obligations.SubtractsReportStrictOrder :=
  ⟨picks_sub, picks_subn, fun x y s => ends_of_subtraction (exec_sub x y s), fun x y s => ends_of_subtraction (exec_subn x y s)⟩

/-- Settles O23: the bit shifted out is written first, the shifted value last. -/
theorem shiftsReportBitOut : Obligations.ShiftsReportBitOut := by
  refine ⟨picks_shr, picks_shl, fun x y s => ?shr, fun x y s => ?shl⟩
  case shr =>
    obtain ⟨t, ht, hresult, hflag, hframe⟩ := ends_of_flagThenResult (exec_shr x y s)
    refine ⟨t, ht, ?_, fun hx => ?_, hframe⟩
    · rw [hresult, toNat_shiftRight_one_byte]
    · rw [hflag hx, flagByte_lowBit]
  case shl =>
    obtain ⟨t, ht, hresult, hflag, hframe⟩ := ends_of_flagThenResult (exec_shl x y s)
    refine ⟨t, ht, ?_, fun hx => ?_, hframe⟩
    · rw [hresult, toNat_shiftLeft_one_byte]
    · rw [hflag hx, flagByte_highBit]

/-- Settles O24: the masked input, bit by bit. -/
theorem rndMasksInput : Obligations.RndMasksInput := by
  refine ⟨picks_rnd, fun x kk s => ⟨_, exec_rnd x kk s, fun k => ?bits, onlyRegs_setV s x _⟩⟩
  case bits => rw [State.getV_setV_self, BitVec.getLsbD_and]

/-! ### The flag register as an operand (R123) -/

section

variable {o : Outcome} {x : Reg} {result flag frame : State → Prop}

/-- Flag written last: `VF` ends as the flag, whatever register the result went to. -/
theorem flag_of_resultThenFlag (h : ∃ t, o = .next t ∧ (x ≠ 15 → result t) ∧ flag t ∧ frame t) : ∃ t, o = .next t ∧ flag t :=
  h.imp fun _ ⟨ht, _, hflag, _⟩ => ⟨ht, hflag⟩

/-- Flag written last, result elsewhere: both are kept. -/
theorem both_of_resultThenFlag (hx : x ≠ 15) (h : ∃ t, o = .next t ∧ (x ≠ 15 → result t) ∧ flag t ∧ frame t) :
    ∃ t, o = .next t ∧ result t ∧ flag t :=
  h.imp fun _ ⟨ht, hresult, hflag, _⟩ => ⟨ht, hresult hx, hflag⟩

/-- Result written last: it survives, whatever register it went to. -/
theorem result_of_flagThenResult (h : ∃ t, o = .next t ∧ result t ∧ (x ≠ 15 → flag t) ∧ frame t) : ∃ t, o = .next t ∧ result t :=
  h.imp fun _ ⟨ht, hresult, _⟩ => ⟨ht, hresult⟩

/-- Result written last, and not to `VF`: both are kept. -/
theorem both_of_flagThenResult (hx : x ≠ 15) (h : ∃ t, o = .next t ∧ result t ∧ (x ≠ 15 → flag t) ∧ frame t) :
    ∃ t, o = .next t ∧ result t ∧ flag t :=
  h.imp fun _ ⟨ht, hresult, hflag, _⟩ => ⟨ht, hresult, hflag hx⟩

end

/-- Settles O25: for `x = 15` the last write is what `VF` holds; for `y = 15` and `x` another register both writes are kept. -/
theorem flagRegisterAsOperand : Obligations.FlagRegisterAsOperand := by
  intro r s
  obtain ⟨-, -, -, or_ends, and_ends, xor_ends⟩ := logicClearsFlag
  obtain ⟨-, add_ends⟩ := addReportsCarry
  obtain ⟨-, -, sub_ends, subn_ends⟩ := subtractsReportStrictOrder
  obtain ⟨-, -, shr_ends, shl_ends⟩ := shiftsReportBitOut
  refine ⟨?logic, flag_of_resultThenFlag (add_ends 15 r s), flag_of_resultThenFlag (sub_ends 15 r s),
    flag_of_resultThenFlag (subn_ends 15 r s), result_of_flagThenResult (shr_ends 15 r s),
    result_of_flagThenResult (shl_ends 15 r s), fun hr => ?operandY⟩
  case logic =>
    rw [List.forall_mem_cons, List.forall_mem_cons, List.forall_mem_singleton]
    exact ⟨flag_of_resultThenFlag (or_ends 15 r s), flag_of_resultThenFlag (and_ends 15 r s),
      flag_of_resultThenFlag (xor_ends 15 r s)⟩
  case operandY =>
    exact ⟨both_of_resultThenFlag hr (or_ends r 15 s), both_of_resultThenFlag hr (and_ends r 15 s),
      both_of_resultThenFlag hr (xor_ends r 15 s), both_of_resultThenFlag hr (add_ends r 15 s),
      both_of_resultThenFlag hr (sub_ends r 15 s), both_of_resultThenFlag hr (subn_ends r 15 s),
      both_of_flagThenResult hr (shr_ends r 15 s), both_of_flagThenResult hr (shl_ends r 15 s)⟩

end Sys2Proof.Machine
end

section
/-! PROOFS. The index register and memory (43_index_memory.md): the rows, phase 3 of each as the write or the range-checked access it
is, and the decimal digits of a byte (R133). -/

namespace Sys2Proof.Machine

/-! ### The rows (30_encoding.md R76) -/

theorem picks_ldIndex : picks 0xF000 0xA000 (fun op => .ldIndex (nnnOf op)) := picks_F000 fun op h => by
  obtain ⟨-, -, -, -, -, -, -, -, -, -, fam, -⟩ := decodeWord_fam op
  exact fam h

/-- A row of family 0xF picks by the low byte (R74). -/
theorem picks_familyF {bits : Word} {f : Word → Instr} (hbits : famOf bits = 0xF) (h : ∀ op, kkOf op = kkOf bits → decodeF op = f op) :
    picks 0xF0FF bits f := picks_F0FF fun op hf hk => by
  obtain ⟨-, -, -, -, -, -, -, -, -, -, -, -, -, -, -, fam⟩ := decodeWord_fam op
  exact (fam (hf.trans hbits)).trans (h op hk)

theorem picks_addIndex : picks 0xF0FF 0xF01E (fun op => .addIndex (xOf op)) := picks_familyF rfl fun op hk => by
  obtain ⟨-, -, -, -, code, -⟩ := decodeF_assigned op
  exact code hk

theorem picks_ldFont : picks 0xF0FF 0xF029 (fun op => .ldFont (xOf op)) := picks_familyF rfl fun op hk => by
  obtain ⟨-, -, -, -, -, code, -⟩ := decodeF_assigned op
  exact code hk

theorem picks_ldBcd : picks 0xF0FF 0xF033 (fun op => .ldBcd (xOf op)) := picks_familyF rfl fun op hk => by
  obtain ⟨-, -, -, -, -, -, code, -⟩ := decodeF_assigned op
  exact code hk

theorem picks_ldRegs : picks 0xF0FF 0xF065 (fun op => .ldRegs (xOf op)) := picks_familyF rfl fun op hk => by
  obtain ⟨-, -, -, -, -, -, -, -, code⟩ := decodeF_assigned op
  exact code hk

/-! ### Phase 3 of each of them, as the write or the access it is -/

theorem exec_ldIndex (nnn : Addr) (s : State) : exec (.ldIndex nnn) s = .next { s with I := zextAddr nnn } := rfl
theorem exec_addIndex (x : Reg) (s : State) : exec (.addIndex x) s = .next { s with I := s.I + zextByte (s.getV x) } := rfl
theorem exec_ldFont (x : Reg) (s : State) : exec (.ldFont x) s = .next { s with I := glyphAddr (s.getV x) } := rfl
theorem exec_ldBcd (x : Reg) (s : State) :
    exec (.ldBcd x) s = accessing s 3 (storeBytes s.I.toNat (decimalDigits (s.getV x)) s) := rfl
theorem exec_ldRegs (x : Reg) (s : State) : exec (.ldRegs x) s = accessing s (x.toNat + 1) (loadRegs (x.toNat + 1) s) := rfl

/-! ### LD I, ADD I, LD F (R130 to R132) -/

/-- Settles O26: each is one write of `I`; the zero extension and the glyph address never wrap, the sum may. -/
theorem indexWrites : Obligations.IndexWrites := by
  refine ⟨picks_ldIndex, picks_addIndex, picks_ldFont,
    fun nnn s => ⟨_, exec_ldIndex nnn s, zextAddr_toNat nnn, onlyIndex_set s _⟩,
    fun x s => ⟨_, exec_addIndex x s, ?sum, onlyIndex_set s _⟩,
    fun x s => ⟨_, exec_ldFont x s, glyphAddr_toNat _, onlyIndex_set s _⟩⟩
  case sum => rw [BitVec.toNat_add, zextByte_toNat]

/-! ### LD B (R133) -/

theorem decimalDigits_length (b : Byte) : (decimalDigits b).length = 3 := rfl

/-- The digits of a byte stored from an address upward, read back as numbers. -/
theorem readByte_storeBytes_decimalDigits (a : Nat) (b : Byte) (s : State) :
    ((storeBytes a (decimalDigits b) s).readByte a).toNat = b.toNat / 100 ∧
    ((storeBytes a (decimalDigits b) s).readByte (a + 1)).toNat = b.toNat / 10 % 10 ∧
    ((storeBytes a (decimalDigits b) s).readByte (a + 2)).toNat = b.toNat % 10 := by
  have digit (k : Nat) (hk : k < 3) :
      ((storeBytes a (decimalDigits b) s).readByte (a + k)).toNat = ((decimalDigits b)[k]'(decimalDigits_length b ▸ hk)).toNat :=
    congrArg BitVec.toNat (readByte_storeBytes_at _ a s k _)
  refine ⟨(digit 0 (by decide)).trans ?hundreds, (digit 1 (by decide)).trans ?tens, (digit 2 (by decide)).trans ?units⟩
  case hundreds => exact BitVec.toNat_udiv
  case tens => exact BitVec.toNat_umod.trans (congrArg (· % 10) BitVec.toNat_udiv)
  case units => exact BitVec.toNat_umod

/-- Settles O27: a range-checked access of three bytes that stores the digits as one block. -/
theorem bcdStoresDigits : Obligations.BcdStoresDigits := by
  refine ⟨picks_ldBcd, fun x s h => ?stores, fun x s h => ?faults⟩
  case stores =>
    obtain ⟨hundreds, tens, units⟩ := readByte_storeBytes_decimalDigits s.I.toNat (s.getV x) s
    exact ⟨_, (exec_ldBcd x s).trans (accessing_ok _ (.inr h)), hundreds, tens, units, onlyMem_storeBytes _ _ s⟩
  case faults => exact (exec_ldBcd x s).trans (accessing_bad _ (by decide) (by omega))

/-! ### LD Vx,[I] (R135) -/

/-- Settles O29: a range-checked access of `x + 1` bytes that loads a block of registers. -/
theorem loadRegistersFromIndex : Obligations.LoadRegistersFromIndex := by
  refine ⟨picks_ldRegs, fun x s h => ?loads, fun x s h => ?faults⟩
  case loads =>
    have getV_loaded := getV_loadRegs (x.toNat + 1) x.isLt s
    refine ⟨_, (exec_ldRegs x s).trans (accessing_ok _ (.inr h)), fun r hr => ?upTo, fun r hr => ?above, onlyRegs_loadRegs x s⟩
    case upTo => rw [getV_loaded, if_pos (by omega)]
    case above => rw [getV_loaded, if_neg (by omega)]
  case faults => exact (exec_ldRegs x s).trans (accessing_bad _ (Nat.succ_ne_zero _) (by omega))

end Sys2Proof.Machine
end

section
/-! PROOFS. The framebuffer (44_display.md): the rows of CLS and DRW, phase 3 of each, the pixels a sprite reaches, and the collision as
a lit pixel that a draw turns off. -/

namespace Sys2Proof.Machine

/-! ### The rows (30_encoding.md R76) -/

theorem picks_cls : picks 0xF00F 0x0000 (fun _ => .cls) := picks_F00F fun op hf hn => by
  obtain ⟨fam, -⟩ := decodeWord_fam op
  obtain ⟨code, -⟩ := decode0E_assigned op
  exact (fam hf).trans (code hn)

theorem picks_drw : picks 0xF000 0xD000 (fun op => .drw (xOf op) (yOf op) (nOf op)) := picks_F000 fun op h => by
  obtain ⟨-, -, -, -, -, -, -, -, -, -, -, -, -, fam, -⟩ := decodeWord_fam op
  exact fam h

/-! ### Phase 3 of each of them, as the update or the access it is -/

/-- The state with every pixel dark. -/
def State.cleared (s : State) : State := { s with fb := fbOf fun _ _ => false }

theorem exec_cls (s : State) : exec .cls s = .next s.cleared := rfl
theorem exec_drw (x y : Reg) (n : Nibble) (s : State) :
    exec (.drw x y n) s = accessing s n.toNat (s.drawSprite ((s.getV x).toNat % 64) ((s.getV y).toNat % 32) n.toNat) := rfl

/-! ### The cleared framebuffer (R140) -/

@[simp] theorem State.getV_cleared (s : State) (r : Reg) : s.cleared.getV r = s.getV r := rfl
@[simp] theorem State.cleared_I (s : State) : s.cleared.I = s.I := rfl
@[simp] theorem State.readByte_cleared (s : State) (a : Nat) : s.cleared.readByte a = s.readByte a := rfl

theorem State.cleared_fb (s : State) : s.cleared.fb = fbOf fun _ _ => false := rfl

@[simp] theorem State.pixel_cleared (s : State) (r c : Nat) : s.cleared.pixel r c = false := by
  rw [pixel_fbOf s.cleared_fb, ite_self]

theorem onlyFb_cleared (s : State) : onlyFb [] s s.cleared :=
  ⟨fun _ _ => rfl, rfl, rfl, ⟨rfl, rfl⟩, ⟨rfl, rfl⟩, fun _ => rfl, sameBoundary_refl s⟩

/-! ### The pixels of a draw (R142, R143) -/

section

variable (s : State) (X Y n : Nat)

/-- A sprite bit, as the byte it is a bit of (R142). -/
theorem spriteBit_eq (k j : Nat) : s.spriteBit k j = (s.readByte (s.I.toNat + k)).getLsbD (7 - j) := rfl

theorem pixel_lit_inside {r c : Nat} (h : s.pixel r c = true) : r < 32 ∧ c < 64 := by
  by_contra hout
  rw [pixel_outside s hout] at h
  cases h

/-- Inside the framebuffer nothing is clipped. -/
theorem pixel_drawSprite_inside {r c : Nat} (hr : r < 32) (hc : c < 64) :
    (s.drawSprite X Y n).pixel r c = (s.pixel r c ^^ s.spriteAt X Y n r c) := by
  rw [pixel_drawSprite, decide_eq_true ⟨hr, hc⟩, Bool.and_true]

/-- A draw leaves every pixel alone that the sprite sets no bit at. -/
theorem pixel_drawSprite_of_not_spriteAt {r c : Nat} (h : s.spriteAt X Y n r c = false) :
    (s.drawSprite X Y n).pixel r c = s.pixel r c := by
  rw [pixel_drawSprite, h, Bool.false_and, Bool.xor_false]

/-- A sprite sets nothing outside its own rows and columns. -/
theorem spriteAt_outside {r c : Nat} (h : ∀ k j, k < n → j < 8 → ¬ (r = Y + k ∧ c = X + j)) : s.spriteAt X Y n r c = false := by
  rw [Bool.eq_false_iff, Ne, spriteAt_iff]
  rintro ⟨k, j, hk, hj, hr, hc, -⟩
  exact h k j hk hj ⟨hr, hc⟩

/-- On a dark framebuffer a draw shows the sprite itself. -/
theorem pixel_drawSprite_of_dark {r c : Nat} (hdark : s.pixel r c = false) (hr : r < 32) (hc : c < 64) :
    (s.drawSprite X Y n).pixel r c = s.spriteAt X Y n r c := by
  rw [pixel_drawSprite_inside s X Y n hr hc, hdark, Bool.false_xor]

/-! ### The collision (R141) -/

theorem collides_iff_spriteAt : s.collides X Y n = true ↔ ∃ r c, s.pixel r c = true ∧ s.spriteAt X Y n r c = true := by
  rw [collides_iff]
  constructor
  · rintro ⟨k, j, hk, hj, hlit, hbit⟩
    exact ⟨Y + k, X + j, hlit, (spriteAt_of s hk hj).trans hbit⟩
  · rintro ⟨r, c, hlit, hset⟩
    obtain ⟨k, j, hk, hj, rfl, rfl, hbit⟩ := (spriteAt_iff s X Y n r c).1 hset
    exact ⟨k, j, hk, hj, hlit, hbit⟩

/-- A lit pixel, which is inside the framebuffer, goes dark in a draw iff the sprite sets a bit there. -/
theorem pixel_drawSprite_dark_iff {r c : Nat} (hlit : s.pixel r c = true) :
    (s.drawSprite X Y n).pixel r c = false ↔ s.spriteAt X Y n r c = true := by
  obtain ⟨hr, hc⟩ := pixel_lit_inside s hlit
  rw [pixel_drawSprite_inside s X Y n hr hc, hlit, Bool.true_xor, Bool.not_eq_false']

/-- The flag tests each sprite bit on its own; it reports just that a lit pixel went dark. -/
theorem collides_iff_turnsOff : s.collides X Y n = true ↔
    ∃ r c, r < 32 ∧ c < 64 ∧ s.pixel r c = true ∧ (s.drawSprite X Y n).pixel r c = false := by
  rw [collides_iff_spriteAt]
  constructor
  · rintro ⟨r, c, hlit, hset⟩
    obtain ⟨hr, hc⟩ := pixel_lit_inside s hlit
    exact ⟨r, c, hr, hc, hlit, (pixel_drawSprite_dark_iff s X Y n hlit).2 hset⟩
  · rintro ⟨r, c, -, -, hlit, hdark⟩
    exact ⟨r, c, hlit, (pixel_drawSprite_dark_iff s X Y n hlit).1 hdark⟩

/-- `VF` after a draw holds the collision. -/
theorem getV_flag_drawSprite : (s.drawSprite X Y n).getV 15 = flagByte (s.collides X Y n) := by
  rw [getV_drawSprite, flagReg_eq, if_pos rfl]

end

/-! ### CLS and DRW -/

theorem flagByte_bit (f : Bool) : flagByte f = 0 ∨ flagByte f = 1 := by
  cases f
  · exact .inl rfl
  · exact .inr rfl

/-- Settles O30: CLS leaves the cleared state, on which a draw shows the sprite itself. -/
theorem clsClears : Obligations.ClsClears := by
  refine ⟨picks_cls, fun s => ⟨_, exec_cls s, s.pixel_cleared, onlyFb_cleared s, fun x y n u h r c hr hc => ?sprite⟩⟩
  case sprite =>
    obtain ⟨rfl, -⟩ := accessing_next ((exec_drw x y n s.cleared).symm.trans h)
    rw [pixel_drawSprite_of_dark _ _ _ _ (s.pixel_cleared r c) hr hc, spriteAt_iff]
    simp only [State.getV_cleared, State.cleared_I, State.readByte_cleared, spriteBit_eq]

/-- Settles O31: a range-checked access of `n` bytes that draws the sprite; the flag is `collides_iff_turnsOff`. -/
theorem drwXorsSprite : Obligations.DrwXorsSprite := by
  refine ⟨picks_drw, fun x y n s h => ?draws, fun x y n s h0 h => (exec_drw x y n s).trans (accessing_bad _ h0 h)⟩
  case draws =>
    refine ⟨_, (exec_drw x y n s).trans (accessing_ok _ h), fun k j hk hj hr hc => ?inverted, fun r c hout => ?others, ?bit,
      ?collision, onlyFb_drawSprite s _ _ _⟩
    case inverted => rw [pixel_drawSprite_inside s _ _ _ hr hc, spriteAt_of s hk hj, spriteBit_eq]
    case others => exact pixel_drawSprite_of_not_spriteAt s _ _ _ (spriteAt_outside s _ _ _ hout)
    case bit => rw [getV_flag_drawSprite]; exact flagByte_bit _
    case collision => rw [getV_flag_drawSprite, flagByte_eq_one, collides_iff_turnsOff]

end Sys2Proof.Machine
end

section
/-! PROOFS. The keypad (45_keypad_timers.md): the rows of the two key skips and of the key wait, the skip on a key's level, and the wait
by what its scan of the keys finds, in phase 3 and over a whole step. -/

namespace Sys2Proof.Machine

/-! ### The rows (30_encoding.md R76) -/

/-- A row of family 0xE picks by the low nibble (R74). -/
theorem picks_familyE {bits : Word} {f : Word → Instr} (hbits : famOf bits = 0xE) (h : ∀ op, nOf op = nOf bits → decodeE op = f op) :
    picks 0xF00F bits f := picks_F00F fun op hf hn => by
  obtain ⟨-, -, -, -, -, -, -, -, -, -, -, -, -, -, fam, -⟩ := decodeWord_fam op
  exact (fam (hf.trans hbits)).trans (h op hn)

theorem picks_skp : picks 0xF00F 0xE00E (fun op => .skp (xOf op)) := picks_familyE rfl fun op hn => by
  obtain ⟨-, -, code, -⟩ := decode0E_assigned op
  exact code hn

theorem picks_sknp : picks 0xF00F 0xE001 (fun op => .sknp (xOf op)) := picks_familyE rfl fun op hn => by
  obtain ⟨-, -, -, code⟩ := decode0E_assigned op
  exact code hn

theorem picks_ldKey : picks 0xF0FF 0xF00A (fun op => .ldKey (xOf op)) := picks_familyF rfl fun op hk => by
  obtain ⟨-, code, -⟩ := decodeF_assigned op
  exact code hk

/-! ### SKP and SKNP (R150, R151) -/

theorem exec_skp (x : Reg) (s : State) : exec (.skp x) s = skipOnKey x true s := rfl
theorem exec_sknp (x : Reg) (s : State) : exec (.sknp x) s = skipOnKey x false s := rfl

theorem skipOnKey_of_le {x : Reg} {s : State} (h : (s.getV x).toNat ≤ 15) (pressed : Bool) :
    skipOnKey x pressed s = .next (s.skipIf (s.key.getLsbD (s.getV x).toNat == pressed)) := if_neg (by omega)

theorem skipOnKey_of_gt {x : Reg} {s : State} (h : 15 < (s.getV x).toNat) (pressed : Bool) :
    skipOnKey x pressed s = .fault (.keyIndex (s.getV x)) := if_pos h

/-- Settles O33: both are skips on the Boolean equality of the key's level with the one they ask for. -/
theorem keySkips : Obligations.KeySkips :=
  ⟨picks_skp, picks_sknp,
    fun x s h => pc_of_skipIf ((exec_skp x s).trans (skipOnKey_of_le h true)) beq_iff_eq,
    fun x s h => pc_of_skipIf ((exec_sknp x s).trans (skipOnKey_of_le h false)) beq_iff_eq,
    fun x s h => ⟨(exec_skp x s).trans (skipOnKey_of_gt h true), (exec_sknp x s).trans (skipOnKey_of_gt h false)⟩⟩

/-! ### The key wait (R152) -/

theorem exec_ldKey_of_some {s : State} {b : Byte} (h : s.lowestKey = some b) (x : Reg) : exec (.ldKey x) s = .next (s.setV x b) := by
  show execLdKey x s = _
  rw [execLdKey, h]

theorem exec_ldKey_of_none {s : State} (h : s.lowestKey = none) (x : Reg) : exec (.ldKey x) s = .next (s.jumpTo (s.pc - 2)) := by
  show execLdKey x s = _
  rw [execLdKey, h]

/-- A key number fits in a byte. -/
theorem toNat_ofNat_key {k : Nat} (hk : k < 16) : (BitVec.ofNat 8 k).toNat = k :=
  (BitVec.toNat_ofNat k 8).trans (Nat.mod_eq_of_lt (by omega))

/-- The address the wait goes back to is its own: phase 2 had moved `pc` on by 2. -/
theorem State.advance_pc_sub_two (s : State) : s.advance.pc - 2 = s.pc := BitVec.add_sub_cancel s.pc 2

section
variable {x : Reg} {s : State} {op : Word} (hf : fetch s = .ok op) (hd : decodeWord op = .ldKey x)
include hf hd

/-- A whole step of the wait with no key pressed leaves what a jump to itself does. -/
theorem step_ldKey_of_none (h : ∀ k < 16, s.nextInput.keys.getLsbD k = false) : step s = .next s.spun := by
  have wait : exec (.ldKey x) s.sample.advance = .next (s.sample.advance.jumpTo (s.sample.advance.pc - 2)) :=
    exec_ldKey_of_none (lowestKey_none h) x
  rw [State.advance_pc_sub_two] at wait
  exact step_of_exec hf (hd ▸ wait)

/-- A whole step of the wait with a key pressed writes a pressed key. -/
theorem step_ldKey_of_pressed (h : ∃ k < 16, s.nextInput.keys.getLsbD k = true) :
    ∃ k < 16, s.nextInput.keys.getLsbD k = true ∧ step s = .next (s.sample.advance.setV x (BitVec.ofNat 8 k)).tick := by
  rcases lowestKey_cases s.sample.advance with ⟨-, up⟩ | ⟨k, hk, found, down, -⟩
  · obtain ⟨k, hk, down⟩ := h
    exact absurd down (Bool.eq_false_iff.1 (up k hk))
  · exact ⟨k, hk, down, step_of_exec hf (hd ▸ exec_ldKey_of_some found x)⟩

end

/-- Settles O34: the scan finds the lowest pressed key, which is written, or none, and `pc` goes back to where the step began. -/
theorem keyWaitTakesLowest : Obligations.KeyWaitTakesLowest := by
  refine ⟨picks_ldKey, fun x s k hk down lowest => ?pressed, fun x s h => ?none, fun x s op hf hd h => ?stepNone,
    fun x s op hf hd h => ?stepPressed⟩
  case pressed =>
    refine ⟨_, exec_ldKey_of_some (lowestKey_some hk down lowest) x, ?_, onlyRegs_setV s x _⟩
    rw [State.getV_setV_self, toNat_ofNat_key hk]
  case none => exact ⟨_, exec_ldKey_of_none (lowestKey_none h) x, rfl, onlyPc_jumpTo s _⟩
  case stepNone =>
    exact ⟨_, step_ldKey_of_none hf hd h, s.spun_pc, fun _ _ => rfl, s.spun_DT_toNat, s.spun_ST_toNat⟩
  case stepPressed =>
    obtain ⟨k, hk, down, hstep⟩ := step_ldKey_of_pressed hf hd h
    refine ⟨_, hstep, rfl, ?_⟩
    rw [State.getV_tick, State.getV_setV_self, toNat_ofNat_key hk]
    exact down

end Sys2Proof.Machine
end

section
/-! PROOFS. What a step ends in (60_exceptions.md): the listed fault of the fetched instruction or, where none is listed, a next state,
never a refusal (R174); and the state that the host is left with after a fault (R166). -/

namespace Sys2Proof.Machine

/-! ### An outcome that answers the listed fault -/

section
variable {o : Outcome} {c : Option Fault} (h : FaultsAs o c)
include h

theorem FaultsAs.next_iff : (∃ t, o = .next t) ↔ c = none := by
  cases h with
  | next t => simp
  | fault f => simp

theorem FaultsAs.ne_refused (r : Refusal) : o ≠ .refused r := by
  cases h <;> exact nofun

/-- Phase 4 runs only after a phase 3 that met no fault, and raises none. -/
theorem FaultsAs.finishStep : FaultsAs (finishStep o) c := by
  cases h with
  | next t => exact .next t.tick
  | fault f => exact .fault f

end

/-! ### The step and the fault of its instruction (R161, R171, R174) -/

/-- The listed fault depends on the registers, `I` and `sp` alone. -/
theorem faultOf_congr {s t : State} (hV : t.V = s.V) (hI : t.I = s.I) (hsp : t.sp = s.sp) (i : Instr) : faultOf i t = faultOf i s := by
  unfold faultOf State.getV
  rw [hV, hI, hsp]

/-- A step that fetches a word faults as the state before it says of the decoded instruction. -/
theorem step_faultsAs {s : State} {op : Word} (h : fetch s = .ok op) : FaultsAs (step s) (faultOf (decodeWord op) s) := by
  have phase3 : FaultsAs (exec (decodeWord op) s.sample.advance) (faultOf (decodeWord op) s) :=
    faultOf_congr (s := s) (t := s.sample.advance) rfl rfl rfl (decodeWord op) ▸ exec_faultsAs _ _
  rw [step_of_fetch h]
  exact phase3.finishStep

theorem step_ne_refused (s : State) (r : Refusal) : step s ≠ .refused r := by
  rcases step_eq s with ⟨-, e⟩ | ⟨op, hf, -⟩
  · rw [e]
    exact nofun
  · exact (step_faultsAs hf).ne_refused r

theorem stepsOk_iff (s : State) : stepsOk s ↔ ∃ op, fetch s = .ok op ∧ faultOf (decodeWord op) s = none := by
  constructor
  · rintro ⟨t, h⟩
    obtain ⟨op, -, hf, -, -⟩ := step_next h
    exact ⟨op, hf, (step_faultsAs hf).next_iff.1 ⟨t, h⟩⟩
  · rintro ⟨op, hf, hc⟩
    exact (step_faultsAs hf).next_iff.2 hc

/-- Settles O37: phase 3 and the step both answer the listed fault, so with none listed they end in a next state. -/
theorem everyWordExecutes : Obligations.EveryWordExecutes :=
  ⟨fun op s hc => (exec_faultsAs (decodeWord op) s).next_iff.2 hc, step_ne_refused, stepsOk_iff⟩

/-! ### The host's answer to a faulting step (R166) -/

/-- A request is answered with a fault only for a step that ends in it, and leaves the state before the step. -/
theorem serve_step_fault {inp : StepInput} {s t : State} {code info : Nat} (h : serve (.step inp) s = (t, .stepFault code info)) :
    t = s ∧ ∃ f, stepWith inp s = .fault f ∧ code = f.code ∧ info = f.info := by
  cases e : stepWith inp s with
  | next u => simp [serve, e] at h
  | fault f =>
    rw [serve_step_of_fault e] at h
    cases h
    exact ⟨rfl, f, rfl, rfl, rfl⟩
  | refused r => simp [serve, e] at h

/-- Settles O38: of the three outcomes of a step only a fault is answered with one, and its state is the one before. -/
theorem faultChangesNothing : Obligations.FaultChangesNothing := by
  intro inp s t code info h
  obtain ⟨same, -⟩ := serve_step_fault h
  exact same

end Sys2Proof.Machine
end

section
/-! PROOFS. The load of a program (70_reset_and_hazards.md R196): what `loadProgram` answers by the byte count, and the upper byte of
the word fetched after it. -/

namespace Sys2Proof.Machine

/-! ### The load by the byte count -/

section

variable {bytes : List Byte} {s t : State}

theorem loadProgram_ok (h : bytes.length ≤ 3584) : loadProgram bytes s = .ok (storeBytes 0x200 bytes s) :=
  if_neg (Nat.not_lt.2 h)

theorem loadProgram_error (h : 3584 < bytes.length) : loadProgram bytes s = .error (.tooLarge bytes.length) := if_pos h

/-- A load that succeeds is a block store. -/
theorem eq_storeBytes_of_loadProgram (h : loadProgram bytes s = .ok t) : t = storeBytes 0x200 bytes s := by
  rcases Nat.lt_or_ge 3584 bytes.length with large | fits
  · rw [loadProgram_error large] at h
    cases h
  · rw [loadProgram_ok fits] at h
    cases h
    rfl

/-- The host's answer to a load that fails: the state before it, and the error's code and info. -/
theorem serve_loadProgram_of_error {e : LoadError} (h : loadProgram bytes s = .error e) :
    serve (.loadProgram bytes) s = (s, .loadError e.code e.info) := by
  simp only [serve, h]

end

/-! ### The first byte of the program -/

/-- A block store leaves `pc` alone. -/
theorem storeBytes_pc (bs : List Byte) (a : Nat) (s : State) : (storeBytes a bs s).pc = s.pc := by rw [storeBytes_fields]

/-- The upper byte of a fetched word is the one at `pc` (R52). -/
theorem upperByte_of_fetch {s : State} {op : Word} (h : fetch s = .ok op) : op.toNat / 256 = (s.readByte s.pc.toNat).toNat := by
  rw [fetch_ok (pc_lt_of_fetch h)] at h
  cases h
  have lower : (s.readByte (s.pc.toNat + 1)).toNat < 256 := (s.readByte (s.pc.toNat + 1)).isLt
  rw [wordOfBytes_toNat]
  omega

/-- Settles O50: a load that fits is a block store at 0x200, where the fetch takes its upper byte; one that does not is an error. -/
theorem loadCopiesOrRejects : Obligations.LoadCopiesOrRejects := by
  refine ⟨fun bytes s fits => ?copies, fun hi rest s t op hload hpc hfetch => ?upper,
    fun bytes s large => ⟨loadProgram_error large, serve_loadProgram_of_error (loadProgram_error large)⟩⟩
  case copies =>
    exact ⟨_, loadProgram_ok fits, readByte_storeBytes_at bytes 0x200 s, onlyMem_storeBytes bytes 0x200 s⟩
  case upper =>
    obtain rfl := eq_storeBytes_of_loadProgram hload
    rw [upperByte_of_fetch hfetch, storeBytes_pc, hpc]
    exact congrArg BitVec.toNat (readByte_storeBytes_at (hi :: rest) 0x200 s 0 (Nat.succ_pos _))

end Sys2Proof.Machine
end

section
/-! PROOFS. The decoder and the encoder (30_encoding.md): the rows of the timer moves and of LD [I], and the round trip of an instruction
through its word. -/

namespace Sys2Proof.Machine

open Laws

/-! ### The rows that no family above has stated (R76) -/

theorem picks_ldFromDT : picks 0xF0FF 0xF007 (fun op => .ldFromDT (xOf op)) := picks_familyF rfl fun op hk => by
  obtain ⟨code, -⟩ := decodeF_assigned op
  exact code hk

theorem picks_ldDT : picks 0xF0FF 0xF015 (fun op => .ldDT (xOf op)) := picks_familyF rfl fun op hk => by
  obtain ⟨-, -, code, -⟩ := decodeF_assigned op
  exact code hk

theorem picks_ldST : picks 0xF0FF 0xF018 (fun op => .ldST (xOf op)) := picks_familyF rfl fun op hk => by
  obtain ⟨-, -, -, code, -⟩ := decodeF_assigned op
  exact code hk

theorem picks_ldMem : picks 0xF0FF 0xF055 (fun op => .ldMem (xOf op)) := picks_familyF rfl fun op hk => by
  obtain ⟨-, -, -, -, -, -, -, code, -⟩ := decodeF_assigned op
  exact code hk

/-! ### The round trip from an instruction (R71, R76) -/

section
variable {code : BitVec 12}

/-- The secondary code of an unassigned code's word is the code's own, so a well-formed no-op decodes to itself (R78). -/
theorem decodeWord_encodeWord_nop0 (h : (Instr.nop0 code).wf = true) : decodeWord (encNNN 0x0 code) = .nop0 code := by
  obtain ⟨fam, -⟩ := decodeWord_fam (encNNN 0x0 code)
  have free : nOf (encNNN 0x0 code) ∉ assigned0 := by simpa [Instr.wf] using h
  rw [fam (famOf_encNNN ..), decode0_unassigned free, nnnOf_encNNN]

theorem decodeWord_encodeWord_nop8 (h : (Instr.nop8 code).wf = true) : decodeWord (encNNN 0x8 code) = .nop8 code := by
  obtain ⟨-, -, -, -, -, -, -, -, fam, -⟩ := decodeWord_fam (encNNN 0x8 code)
  have free : nOf (encNNN 0x8 code) ∉ assigned8 := by simpa [Instr.wf] using h
  rw [fam (famOf_encNNN ..), decode8_unassigned free, nnnOf_encNNN]

theorem decodeWord_encodeWord_nopE (h : (Instr.nopE code).wf = true) : decodeWord (encNNN 0xE code) = .nopE code := by
  obtain ⟨-, -, -, -, -, -, -, -, -, -, -, -, -, -, fam, -⟩ := decodeWord_fam (encNNN 0xE code)
  have free : nOf (encNNN 0xE code) ∉ assignedE := by simpa [Instr.wf] using h
  rw [fam (famOf_encNNN ..), decodeE_unassigned free, nnnOf_encNNN]

theorem decodeWord_encodeWord_nopF (h : (Instr.nopF code).wf = true) : decodeWord (encNNN 0xF code) = .nopF code := by
  obtain ⟨-, -, -, -, -, -, -, -, -, -, -, -, -, -, -, fam⟩ := decodeWord_fam (encNNN 0xF code)
  have free : kkOf (encNNN 0xF code) ∉ assignedF := by simpa [Instr.wf] using h
  rw [fam (famOf_encNNN ..), decodeF_unassigned free, nnnOf_encNNN]

end

/-- The canonical word of an instruction is of the row that picks the instruction, and its fields are the operands. -/
theorem decodeWord_encodeWord {i : Instr} (h : i.wf = true) : decodeWord (encodeWord i) = i := by
  cases i
  case cls => exact picks_cls _ RowMatch.cls
  case ret => exact picks_ret _ RowMatch.ret
  case jp nnn => exact decodeWord_encodeWord_jp nnn
  case call nnn => exact (picks_call _ (RowMatch.call nnn)).trans (congrArg Instr.call (nnnOf_encNNN ..))
  case seI x kk => exact (picks_seI _ (RowMatch.seI x kk)).trans (congrArg₂ Instr.seI (xOf_encXKK ..) (kkOf_encXKK ..))
  case sneI x kk => exact (picks_sneI _ (RowMatch.sneI x kk)).trans (congrArg₂ Instr.sneI (xOf_encXKK ..) (kkOf_encXKK ..))
  case seR x y => exact (picks_seR _ (RowMatch.seR x y)).trans (congrArg₂ Instr.seR (xOf_encXYN ..) (yOf_encXYN ..))
  case sneR x y => exact (picks_sneR _ (RowMatch.sneR x y)).trans (congrArg₂ Instr.sneR (xOf_encXYN ..) (yOf_encXYN ..))
  case ldI x kk => exact (picks_ldI _ (RowMatch.ldI x kk)).trans (congrArg₂ Instr.ldI (xOf_encXKK ..) (kkOf_encXKK ..))
  case addI x kk => exact (picks_addI _ (RowMatch.addI x kk)).trans (congrArg₂ Instr.addI (xOf_encXKK ..) (kkOf_encXKK ..))
  case ldR x y => exact (picks_ldR _ (RowMatch.ldR x y)).trans (congrArg₂ Instr.ldR (xOf_encXYN ..) (yOf_encXYN ..))
  case orR x y => exact (picks_orR _ (RowMatch.orR x y)).trans (congrArg₂ Instr.orR (xOf_encXYN ..) (yOf_encXYN ..))
  case andR x y => exact (picks_andR _ (RowMatch.andR x y)).trans (congrArg₂ Instr.andR (xOf_encXYN ..) (yOf_encXYN ..))
  case xorR x y => exact (picks_xorR _ (RowMatch.xorR x y)).trans (congrArg₂ Instr.xorR (xOf_encXYN ..) (yOf_encXYN ..))
  case addR x y => exact (picks_addR _ (RowMatch.addR x y)).trans (congrArg₂ Instr.addR (xOf_encXYN ..) (yOf_encXYN ..))
  case sub x y => exact (picks_sub _ (RowMatch.sub x y)).trans (congrArg₂ Instr.sub (xOf_encXYN ..) (yOf_encXYN ..))
  case shr x y => exact (picks_shr _ (RowMatch.shr x y)).trans (congrArg₂ Instr.shr (xOf_encXYN ..) (yOf_encXYN ..))
  case subn x y => exact (picks_subn _ (RowMatch.subn x y)).trans (congrArg₂ Instr.subn (xOf_encXYN ..) (yOf_encXYN ..))
  case shl x y => exact (picks_shl _ (RowMatch.shl x y)).trans (congrArg₂ Instr.shl (xOf_encXYN ..) (yOf_encXYN ..))
  case ldIndex nnn => exact (picks_ldIndex _ (RowMatch.ldIndex nnn)).trans (congrArg Instr.ldIndex (nnnOf_encNNN ..))
  case jpV0 nnn => exact (picks_jpV0 _ (RowMatch.jpV0 nnn)).trans (congrArg Instr.jpV0 (nnnOf_encNNN ..))
  case rnd x kk => exact (picks_rnd _ (RowMatch.rnd x kk)).trans (congrArg₂ Instr.rnd (xOf_encXKK ..) (kkOf_encXKK ..))
  case drw x y n =>
    refine (picks_drw _ (RowMatch.drw x y n)).trans ?_
    simp only [encodeWord, xOf_encXYN, yOf_encXYN, nOf_encXYN]
  case skp x => exact (picks_skp _ (RowMatch.skp x)).trans (congrArg Instr.skp (xOf_encXKK ..))
  case sknp x => exact (picks_sknp _ (RowMatch.sknp x)).trans (congrArg Instr.sknp (xOf_encXKK ..))
  case ldFromDT x => exact (picks_ldFromDT _ (RowMatch.ldFromDT x)).trans (congrArg Instr.ldFromDT (xOf_encXKK ..))
  case ldDT x => exact (picks_ldDT _ (RowMatch.ldDT x)).trans (congrArg Instr.ldDT (xOf_encXKK ..))
  case ldST x => exact (picks_ldST _ (RowMatch.ldST x)).trans (congrArg Instr.ldST (xOf_encXKK ..))
  case ldKey x => exact (picks_ldKey _ (RowMatch.ldKey x)).trans (congrArg Instr.ldKey (xOf_encXKK ..))
  case addIndex x => exact (picks_addIndex _ (RowMatch.addIndex x)).trans (congrArg Instr.addIndex (xOf_encXKK ..))
  case ldFont x => exact (picks_ldFont _ (RowMatch.ldFont x)).trans (congrArg Instr.ldFont (xOf_encXKK ..))
  case ldBcd x => exact (picks_ldBcd _ (RowMatch.ldBcd x)).trans (congrArg Instr.ldBcd (xOf_encXKK ..))
  case ldMem x => exact (picks_ldMem _ (RowMatch.ldMem x)).trans (congrArg Instr.ldMem (xOf_encXKK ..))
  case ldRegs x => exact (picks_ldRegs _ (RowMatch.ldRegs x)).trans (congrArg Instr.ldRegs (xOf_encXKK ..))
  case nop0 => exact decodeWord_encodeWord_nop0 h
  case nop8 => exact decodeWord_encodeWord_nop8 h
  case nopE => exact decodeWord_encodeWord_nopE h
  case nopF => exact decodeWord_encodeWord_nopF h

/-- Settles O1: the decoder reads the two bytes as the word, and the word decodes to its instruction. -/
theorem decodeOfEncode : Obligations.DecodeOfEncode := by
  intro i rest h
  rw [encode, decode_bytesOfWord, decodeWord_encodeWord h]

end Sys2Proof.Machine
end

section
/-! PROOFS. What phase 3 leaves, said once for every instruction: the frame of its next state (10_state.md R22, R40, 20_memory.md R50) and
where `pc` stands in it (R25). -/

namespace Sys2Proof.Machine

/-! ### A property of the next state of an outcome -/

/-- Whatever next state the outcome ends in, if it ends in one, has the property. -/
def EndsIn (P : State → Prop) (o : Outcome) : Prop := ∀ t, o = .next t → P t

section
variable {P : State → Prop} {s t : State}

theorem EndsIn.next (h : P t) : EndsIn P (.next t) := by
  rintro _ ⟨⟩
  exact h

theorem EndsIn.accessing {len : Nat} (h : len = 0 ∨ s.I.toNat + len ≤ 4096 → P t) : EndsIn P (accessing s len t) := by
  intro u hu
  obtain ⟨rfl, range⟩ := accessing_next hu
  exact h range

theorem EndsIn.skipOnKey {x : Reg} {pressed : Bool}
    (h : (s.getV x).toNat ≤ 15 → P (s.skipIf (s.key.getLsbD (s.getV x).toNat == pressed))) : EndsIn P (skipOnKey x pressed s) := by
  rcases Nat.lt_or_ge 15 (s.getV x).toNat with gt | le
  · rw [skipOnKey_of_gt gt]
    exact nofun
  · rw [skipOnKey_of_le le]
    exact .next (h le)

theorem EndsIn.popReturn (h : ∀ sp, P { s with sp := sp, pc := s.stack[s.sp.val - 1]'(sp_pred_lt s) }) : EndsIn P (popReturn s) := by
  by_cases empty : s.sp.val = 0
  · rw [popReturn_empty empty]
    exact nofun
  · rw [popReturn_ok empty (sp_pred_lt s)]
    exact .next (h _)

theorem EndsIn.pushAndJump {p : Word} (h : ∀ (room : s.sp.val < Config.stackDepth) sp,
    P { s with stack := s.stack.set s.sp.val s.pc room, sp := sp, pc := p }) : EndsIn P (pushAndJump s p) := by
  by_cases room : s.sp.val < Config.stackDepth
  · rw [pushAndJump_ok room]
    exact .next (h room _)
  · rw [pushAndJump_full room]
    exact nofun

theorem EndsIn.ldKey {x : Reg} (hsome : ∀ b, s.key ≠ 0 → P (s.setV x b)) (hnone : s.key = 0 → P (s.jumpTo (s.pc - 2))) :
    EndsIn P (exec (.ldKey x) s) := by
  rcases lowestKey_cases s with ⟨none, up⟩ | ⟨k, -, some, down, -⟩
  · rw [exec_ldKey_of_none none]
    exact .next (hnone (BitVec.eq_of_getLsbD_eq fun k hk => (up k hk).trans (BitVec.getLsbD_zero).symm))
  · rw [exec_ldKey_of_some some]
    refine .next (hsome _ fun zero => ?_)
    rw [zero] at down
    exact absurd down (Bool.eq_false_iff.1 BitVec.getLsbD_zero)

end

/-! ### The frame of each instruction (R22, R40, R50) -/

/-- How the state that phase 3 of an instruction leaves may differ from the one it found: one case for each kind of state written. -/
inductive Frame (s t : State) : Instr → Prop where
  | regs {i : Instr} : onlyRegs (writtenRegs i) s t → Frame s t i
  | pc {i : Instr} : writesPc i = true → onlyPc s t → Frame s t i
  | ret : t.stack = s.stack → onlyPcAndStack s t → Frame s t .ret
  | call (nnn : Addr) : onlyPcAndStack s t → Frame s t (.call nnn)
  | index {i : Instr} : writesIndex i = true → onlyIndex s t → Frame s t i
  | delay (x : Reg) : t.ST = s.ST → onlyTimers s t → Frame s t (.ldDT x)
  | sound (x : Reg) : t.DT = s.DT → onlyTimers s t → Frame s t (.ldST x)
  | mem {i : Instr} : onlyMem s.I.toNat (storeLen i) s t → Frame s t i
  | cls : onlyFb [] s t → Frame s t .cls
  | drw (x y : Reg) (n : Nibble) : onlyFb [flagReg] s t → Frame s t (.drw x y n)

theorem onlyRegs_refl (s : State) : onlyRegs [] s s :=
  ⟨fun _ _ => rfl, rfl, rfl, ⟨rfl, rfl⟩, ⟨rfl, rfl⟩, rfl, fun _ => rfl, sameBoundary_refl s⟩

theorem onlyTimers_set (s : State) (d t : Byte) : onlyTimers s { s with DT := d, ST := t } :=
  ⟨fun _ _ => rfl, rfl, rfl, ⟨rfl, rfl⟩, rfl, fun _ => rfl, sameBoundary_refl s⟩

theorem exec_ldMem (x : Reg) (s : State) :
    exec (.ldMem x) s = accessing s (x.toNat + 1) (storeBytes s.I.toNat (s.regBytes (x.toNat + 1)) s) := rfl

/-- LD [I] stores as many bytes as it has registers. -/
theorem onlyMem_storeRegs (a n : Nat) (s : State) : onlyMem a n s (storeBytes a (s.regBytes n) s) := by
  have h := onlyMem_storeBytes (s.regBytes n) a s
  rwa [regBytes_length] at h

theorem exec_frame (i : Instr) (s : State) : EndsIn (fun t => Frame s t i) (exec i s) := by
  cases i
  case cls => exact .next (.cls (onlyFb_cleared s))
  case ret => exact .popReturn fun _ => .ret rfl (onlyPcAndStack_set s _ _ _)
  case call nnn => exact .pushAndJump fun _ _ => .call nnn (onlyPcAndStack_set s _ _ _)
  case jp | jpV0 => exact .next (.pc rfl (onlyPc_jumpTo s _))
  case seI | sneI | seR | sneR => exact .next (.pc rfl (onlyPc_skipIf s _))
  case skp | sknp => exact .skipOnKey fun _ => .pc rfl (onlyPc_skipIf s _)
  case ldI | addI | ldR | rnd | ldFromDT => exact .next (.regs (onlyRegs_setV s _ _))
  case orR | andR | xorR | addR | sub | subn => exact .next (.regs (onlyRegs_resultThenFlag s _ _ _))
  case shr | shl => exact .next (.regs (onlyRegs_flagThenResult s _ _ _))
  case ldIndex | addIndex | ldFont => exact .next (.index rfl (onlyIndex_set s _))
  case drw x y n => exact .accessing fun _ => .drw x y n (onlyFb_drawSprite s _ _ _)
  case ldDT x => exact .next (.delay x rfl (onlyTimers_set s _ s.ST))
  case ldST x => exact .next (.sound x rfl (onlyTimers_set s s.DT _))
  case ldKey => exact .ldKey (fun _ _ => .regs (onlyRegs_setV s _ _)) fun _ => .pc rfl (onlyPc_jumpTo s _)
  case ldBcd => exact .accessing fun _ => .mem (onlyMem_storeBytes _ _ s)
  case ldMem => exact .accessing fun _ => .mem (onlyMem_storeRegs _ _ s)
  case ldRegs x => exact .accessing fun _ => .regs (onlyRegs_loadRegs x s)
  case nop0 | nop8 | nopE | nopF => exact .next (.regs (onlyRegs_refl s))

/-- An instruction writes no register outside its list: the frame names the list, or no register at all. -/
theorem Frame.sameRegs {i : Instr} {s t : State} (h : Frame s t i) : sameRegsBut (writtenRegs i) s t := by
  have weaken (none : sameRegsBut [] s t) : sameRegsBut (writtenRegs i) s t := fun r _ => none r List.not_mem_nil
  cases h with
  | regs frame | drw _ _ _ frame =>
    obtain ⟨regs, -⟩ := frame
    exact regs
  | pc _ frame | ret _ frame | call _ frame | index _ frame | delay _ _ frame | sound _ _ frame | mem frame | cls frame =>
    obtain ⟨regs, -⟩ := frame
    exact weaken regs

/-- Settles O42: by the frame of the instruction. -/
theorem onlyListedRegistersWritten : Obligations.OnlyListedRegistersWritten :=
  fun i s t h => (exec_frame i s t h).sameRegs

/-- Settles O43: by the frame of the instruction, one case for each kind of state written. -/
theorem onlyListedStateWritten : Obligations.OnlyListedStateWritten := by
  intro i s t h
  cases exec_frame i s t h with
  | regs frame =>
    obtain ⟨-, I, pc, ⟨stack, sp⟩, ⟨DT, ST⟩, fb, mem, boundary⟩ := frame
    exact ⟨fun _ => I, fun _ => pc, fun _ => ⟨stack, fun _ => sp⟩, fun _ => DT, fun _ => ST, fun _ _ => fb, fun b _ => mem b, boundary⟩
  | pc writes frame =>
    obtain ⟨-, I, ⟨stack, sp⟩, ⟨DT, ST⟩, fb, mem, boundary⟩ := frame
    exact ⟨fun _ => I, fun no => absurd writes (Bool.eq_false_iff.1 no), fun _ => ⟨stack, fun _ => sp⟩, fun _ => DT, fun _ => ST,
      fun _ _ => fb, fun b _ => mem b, boundary⟩
  | ret stack frame =>
    obtain ⟨-, I, ⟨DT, ST⟩, fb, mem, boundary⟩ := frame
    exact ⟨fun _ => I, nofun, fun _ => ⟨stack, fun no => absurd rfl no⟩, fun _ => DT, fun _ => ST, fun _ _ => fb, fun b _ => mem b,
      boundary⟩
  | call nnn frame =>
    obtain ⟨-, I, ⟨DT, ST⟩, fb, mem, boundary⟩ := frame
    exact ⟨fun _ => I, nofun, fun no => absurd rfl (no nnn), fun _ => DT, fun _ => ST, fun _ _ => fb, fun b _ => mem b, boundary⟩
  | index writes frame =>
    obtain ⟨-, pc, ⟨stack, sp⟩, ⟨DT, ST⟩, fb, mem, boundary⟩ := frame
    exact ⟨fun no => absurd writes (Bool.eq_false_iff.1 no), fun _ => pc, fun _ => ⟨stack, fun _ => sp⟩, fun _ => DT, fun _ => ST,
      fun _ _ => fb, fun b _ => mem b, boundary⟩
  | delay x ST frame =>
    obtain ⟨-, I, pc, ⟨stack, sp⟩, fb, mem, boundary⟩ := frame
    exact ⟨fun _ => I, fun _ => pc, fun _ => ⟨stack, fun _ => sp⟩, fun no => absurd rfl (no x), fun _ => ST, fun _ _ => fb,
      fun b _ => mem b, boundary⟩
  | sound x DT frame =>
    obtain ⟨-, I, pc, ⟨stack, sp⟩, fb, mem, boundary⟩ := frame
    exact ⟨fun _ => I, fun _ => pc, fun _ => ⟨stack, fun _ => sp⟩, fun _ => DT, fun no => absurd rfl (no x), fun _ _ => fb,
      fun b _ => mem b, boundary⟩
  | mem frame =>
    obtain ⟨-, I, pc, ⟨stack, sp⟩, ⟨DT, ST⟩, fb, mem, boundary⟩ := frame
    exact ⟨fun _ => I, fun _ => pc, fun _ => ⟨stack, fun _ => sp⟩, fun _ => DT, fun _ => ST, fun _ _ => fb, mem, boundary⟩
  | cls frame =>
    obtain ⟨-, I, pc, ⟨stack, sp⟩, ⟨DT, ST⟩, mem, boundary⟩ := frame
    exact ⟨fun _ => I, fun _ => pc, fun _ => ⟨stack, fun _ => sp⟩, fun _ => DT, fun _ => ST, fun no => absurd rfl no, fun b _ => mem b,
      boundary⟩
  | drw x y n frame =>
    obtain ⟨-, I, pc, ⟨stack, sp⟩, ⟨DT, ST⟩, mem, boundary⟩ := frame
    exact ⟨fun _ => I, fun _ => pc, fun _ => ⟨stack, fun _ => sp⟩, fun _ => DT, fun _ => ST, fun _ no => absurd rfl (no x y n),
      fun b _ => mem b, boundary⟩

section
variable {i : Instr} {s t : State} (h : exec i s = .next t)
include h

theorem pc_of_exec (hw : writesPc i = false) : t.pc = s.pc := by
  obtain ⟨-, pc, -⟩ := onlyListedStateWritten i s t h
  exact pc hw

theorem stack_of_exec (hi : ∀ nnn, i ≠ .call nnn) : t.stack = s.stack := by
  obtain ⟨-, -, stack, -⟩ := onlyListedStateWritten i s t h
  exact (stack hi).1

/-- Phase 3 writes none of the inputs, the outputs and the font. -/
theorem sameBoundary_of_exec : sameBoundary s t := by
  obtain ⟨-, -, -, -, -, -, -, boundary⟩ := onlyListedStateWritten i s t h
  exact boundary

end

/-! ### Where `pc` stands (R25) -/

theorem zextAddr_eq_ofNat (nnn : Addr) : zextAddr nnn = BitVec.ofNat 16 nnn.toNat :=
  BitVec.eq_of_toNat_eq (by rw [zextAddr_toNat, BitVec.toNat_ofNat, Nat.mod_eq_of_lt (nnn.isLt.trans (by decide))])

theorem zextAddr_add_zextByte_eq_ofNat (nnn : Addr) (b : Byte) : zextAddr nnn + zextByte b = BitVec.ofNat 16 (nnn.toNat + b.toNat) := by
  refine BitVec.eq_of_toNat_eq ?_
  have := nnn.isLt
  have := b.isLt
  rw [zextAddr_add_zextByte_toNat, BitVec.toNat_ofNat, Nat.mod_eq_of_lt (by omega)]

/-- A skip's `pc`, told by the proposition that its condition decides. -/
theorem skipIf_pc_of_iff (s : State) {c : Bool} {p : Prop} [Decidable p] (hc : c = true ↔ p) :
    (s.skipIf c).pc = if p then s.pc + 2 else s.pc := by
  rw [State.skipIf_pc, if_congr hc rfl rfl]

/-- A skip's `pc`, told by the proposition that its condition denies. -/
theorem skipIf_pc_of_iff_not (s : State) {c : Bool} {p : Prop} [Decidable p] (hc : c = true ↔ ¬ p) :
    (s.skipIf c).pc = if p then s.pc else s.pc + 2 := by
  rw [skipIf_pc_of_iff s hc, ite_not]

theorem exec_pc (i : Instr) (s : State) : EndsIn (fun t => t.pc = pcAfter i s) (exec i s) := by
  cases i
  case jp nnn => exact .next (zextAddr_eq_ofNat nnn)
  case call nnn => exact .pushAndJump fun _ _ => zextAddr_eq_ofNat nnn
  case jpV0 nnn => exact .next (zextAddr_add_zextByte_eq_ofNat nnn _)
  case ret => exact .popReturn fun _ => by rw [pcAfter, Vector.getElem?_eq_getElem (sp_pred_lt s), Option.getD_some]
  case seI | seR => exact .next (skipIf_pc_of_iff s beq_iff_eq)
  case sneI | sneR => exact .next (skipIf_pc_of_iff_not s bne_iff_ne)
  case skp => exact .skipOnKey fun _ => skipIf_pc_of_iff s beq_iff_eq
  case sknp => exact .skipOnKey fun _ => skipIf_pc_of_iff_not s (by rw [beq_iff_eq, Bool.not_eq_true])
  case ldKey => exact .ldKey (fun _ down => (if_neg down).symm) fun up => (if_pos up).symm
  all_goals exact fun t h => pc_of_exec h rfl

/-- Settles O11: phase 4 leaves `pc` where phase 3 left it. -/
theorem pcMovesAsListed : Obligations.PcMovesAsListed := by
  intro s t op hstep hfetch
  obtain ⟨op', u, hfetch', hexec, rfl⟩ := step_next hstep
  obtain rfl : op' = op := Except.ok.inj (hfetch'.symm.trans hfetch)
  exact exec_pc _ _ u hexec

end Sys2Proof.Machine
end

section
/-! PROOFS. The two invariants (10_state.md R39 and log entry 11): every instruction keeps each of them, so every step and every request of
the host does. -/

namespace Sys2Proof.Machine

/-! ### The canonical form of memory -/

/-- Only the two stores write memory, as one block inside it. -/
theorem exec_keeps_memWf {s : State} (h : s.memWf) (i : Instr) : EndsIn State.memWf (exec i s) := by
  cases i
  case ldBcd => exact .accessing fun range => memWf_storeBytes _ h (range.resolve_left (by decide))
  case ldMem x =>
    refine .accessing fun range => memWf_storeBytes _ h ?_
    rw [regBytes_length]
    exact range.resolve_left (Nat.succ_ne_zero _)
  case ldRegs =>
    refine .accessing fun _ => ?_
    rw [loadRegs_fields]
    exact h
  case ret => exact .popReturn fun _ => h
  case call => exact .pushAndJump fun _ _ => h
  case drw => exact .accessing fun _ => h
  case skp | sknp => exact .skipOnKey fun _ => State.memWf_congr (s.skipIf_mem _) (s.skipIf_font _) h
  case seI | sneI | seR | sneR => exact .next (State.memWf_congr (s.skipIf_mem _) (s.skipIf_font _) h)
  case ldKey => exact .ldKey (fun _ _ => h) fun _ => h
  all_goals exact .next h

/-- Settles O45: of the four phases only phase 3 writes memory. -/
theorem stepKeepsMemoryForm : Obligations.StepKeepsMemoryForm := by
  intro s t h hstep
  obtain ⟨op, u, -, hexec, rfl⟩ := step_next hstep
  exact exec_keeps_memWf (s := s.sample.advance) h (decodeWord op) u hexec

/-! ### The bound on `pc` and on the stacked addresses (R39) -/

theorem ite_toNat_le {p : Prop} [Decidable p] {a b : Word} {n : Nat} (ha : a.toNat ≤ n) (hb : b.toNat ≤ n) :
    (if p then a else b).toNat ≤ n := by
  split
  · exact ha
  · exact hb

/-- The return stack holds addresses up to 4096. -/
def State.stackBounded (s : State) : Prop := ∀ k (h : k < Config.stackDepth), (s.stack[k]'h).toNat ≤ Config.memSize

section
variable {s : State} (hpc : 2 ≤ s.pc.toNat ∧ s.pc.toNat ≤ 4096) (hstack : s.stackBounded)
include hpc hstack

/-- From a `pc` that phase 2 has advanced inside memory, the largest target is that of `JP V0`. -/
theorem pcAfter_le (i : Instr) : (pcAfter i s).toNat ≤ 0x10FE := by
  obtain ⟨ge, le⟩ := hpc
  have stay : s.pc.toNat ≤ 0x10FE := by omega
  have skip : (s.pc + 2).toNat ≤ 0x10FE := by rw [add_two_toNat]; omega
  have wait : (s.pc - 2).toNat ≤ 0x10FE := by
    have two : (2 : Word).toNat = 2 := rfl
    rw [BitVec.toNat_sub_of_le (BitVec.le_def.2 (by omega)), two]
    omega
  have address (n : Nat) (hn : n ≤ 0x10FE) : (BitVec.ofNat 16 n).toNat ≤ 0x10FE :=
    (BitVec.toNat_ofNat n 16).trans_le ((Nat.mod_le _ _).trans hn)
  cases i
  case jp nnn | call nnn =>
    have := nnn.isLt
    exact address nnn.toNat (by omega)
  case jpV0 nnn =>
    have := nnn.isLt
    have := (s.getV 0).isLt
    exact address (nnn.toNat + (s.getV 0).toNat) (by omega)
  case ret =>
    rw [pcAfter, Vector.getElem?_eq_getElem (sp_pred_lt s), Option.getD_some]
    exact (hstack _ _).trans (by decide)
  case seI | seR | skp => exact ite_toNat_le skip stay
  case sneI | sneR | sknp => exact ite_toNat_le stay skip
  case ldKey => exact ite_toNat_le wait stay
  all_goals exact stay

/-- Only CALL pushes, and what it pushes is the advanced `pc`. -/
theorem exec_keeps_stackBounded (i : Instr) : EndsIn State.stackBounded (exec i s) := by
  cases i
  case call nnn =>
    refine .pushAndJump fun room _ k hk => ?_
    show ((s.stack.set s.sp.val s.pc room)[k]'hk).toNat ≤ 4096
    rw [Vector.getElem_set]
    exact ite_toNat_le hpc.2 (hstack k hk)
  all_goals
    intro t h k hk
    simp only [stack_of_exec h nofun]
    exact hstack k hk

end

/-- Settles O46: the step fetched below 4095, so what phase 3 starts from is bounded as `pcAfter_le` asks. -/
theorem stepKeepsPcBound : Obligations.StepKeepsPcBound := by
  rintro s t ⟨-, hstack⟩ hstep
  obtain ⟨op, u, hfetch, hexec, rfl⟩ := step_next hstep
  have hpc := pc_lt_of_fetch hfetch
  have advanced : 2 ≤ s.sample.advance.pc.toNat ∧ s.sample.advance.pc.toNat ≤ 4096 := by
    rw [State.advance_pc, State.sample_pc, add_two_toNat]
    omega
  refine ⟨?pc, exec_keeps_stackBounded (s := s.sample.advance) advanced hstack _ u hexec⟩
  case pc =>
    rw [State.tick_pc, exec_pc _ _ u hexec]
    exact pcAfter_le advanced hstack _

/-! ### Both, along every sequence of requests (R195, R197) -/

theorem hostReset_inv (s : State) : (hostReset s).Inv := by
  refine ⟨State.memWf_of_nil (hostReset_mem s), by rw [hostReset_pc]; decide, fun k hk => ?stack⟩
  case stack =>
    rw [stack_hostReset s k hk]
    decide

/-- Settles O47: construction is the reset of a machine just constructed. -/
theorem resetMeetsInvariants : Obligations.ResetMeetsInvariants :=
  ⟨hostReset_inv State.reset, hostReset_inv⟩

/-- A load writes one block, which fits between 0x200 and the end of memory. -/
theorem loadProgram_inv {bytes : List Byte} {s t : State} (h : s.Inv) (hload : loadProgram bytes s = .ok t) : t.Inv := by
  obtain ⟨memory, bounds⟩ := h
  have fits : bytes.length ≤ 3584 := by
    by_contra large
    rw [loadProgram_error (by omega)] at hload
    cases hload
  obtain rfl := eq_storeBytes_of_loadProgram hload
  refine ⟨memWf_storeBytes bytes memory (by simp only [Config.memSize]; omega), ?_⟩
  rw [storeBytes_fields]
  exact bounds

theorem step_inv {s t : State} (h : s.Inv) (hstep : step s = .next t) : t.Inv :=
  ⟨stepKeepsMemoryForm s t h.1 hstep, stepKeepsPcBound s t h.2 hstep⟩

/-- Supplying inputs to a machine changes neither memory nor an address. -/
theorem stepWith_inv {inp : StepInput} {s t : State} (h : s.Inv) (hstep : stepWith inp s = .next t) : t.Inv :=
  step_inv (s := { s with pending := inp :: s.pending }) h hstep

/-- A request that fails leaves the state before it. -/
theorem serve_inv (req : Request) {s : State} (h : s.Inv) : (serve req s).1.Inv := by
  cases req with
  | reset => exact hostReset_inv s
  | loadProgram bytes =>
    cases e : loadProgram bytes s with
    | ok t => simpa only [serve, e] using loadProgram_inv h e
    | error f => simpa only [serve, e] using h
  | step inp =>
    cases e : stepWith inp s with
    | next t => simpa only [serve, e] using stepWith_inv h e
    | fault f => simpa only [serve, e] using h
    | refused r => simpa only [serve, e] using h

/-- Settles O48, by induction on the requests. -/
theorem requestsKeepInvariants : Obligations.RequestsKeepInvariants := by
  intro reqs
  induction reqs with
  | nil => exact fun _ h => h
  | cons req reqs ih => exact fun _ h => ih _ (serve_inv req h)

end Sys2Proof.Machine
end

section
/-! PROOFS. The decode inverted (30_encoding.md R73 to R78): which fields a word has for each instruction it decodes to; from it the words
that decode to a row of the opcode table, the bits an encoding gives back, and the unassigned codes. -/

namespace Sys2Proof.Machine

/-! ### The decode as a relation between the fields of a word and an instruction -/

/-- The instruction a word stands for by its family, where that decides alone, else by its secondary code too (R73 to R75, R78). -/
inductive Decodes (op : Word) : Instr → Prop where
  | cls : famOf op = 0x0 → nOf op = 0x0 → Decodes op .cls
  | ret : famOf op = 0x0 → nOf op = 0xE → Decodes op .ret
  | nop0 : famOf op = 0x0 → nOf op ∉ assigned0 → Decodes op (.nop0 (nnnOf op))
  | jp : famOf op = 0x1 → Decodes op (.jp (nnnOf op))
  | call : famOf op = 0x2 → Decodes op (.call (nnnOf op))
  | seI : famOf op = 0x3 → Decodes op (.seI (xOf op) (kkOf op))
  | sneI : famOf op = 0x4 → Decodes op (.sneI (xOf op) (kkOf op))
  | seR : famOf op = 0x5 → Decodes op (.seR (xOf op) (yOf op))
  | ldI : famOf op = 0x6 → Decodes op (.ldI (xOf op) (kkOf op))
  | addI : famOf op = 0x7 → Decodes op (.addI (xOf op) (kkOf op))
  | ldR : famOf op = 0x8 → nOf op = 0x0 → Decodes op (.ldR (xOf op) (yOf op))
  | orR : famOf op = 0x8 → nOf op = 0x1 → Decodes op (.orR (xOf op) (yOf op))
  | andR : famOf op = 0x8 → nOf op = 0x2 → Decodes op (.andR (xOf op) (yOf op))
  | xorR : famOf op = 0x8 → nOf op = 0x3 → Decodes op (.xorR (xOf op) (yOf op))
  | addR : famOf op = 0x8 → nOf op = 0x4 → Decodes op (.addR (xOf op) (yOf op))
  | sub : famOf op = 0x8 → nOf op = 0x5 → Decodes op (.sub (xOf op) (yOf op))
  | shr : famOf op = 0x8 → nOf op = 0x6 → Decodes op (.shr (xOf op) (yOf op))
  | subn : famOf op = 0x8 → nOf op = 0x7 → Decodes op (.subn (xOf op) (yOf op))
  | shl : famOf op = 0x8 → nOf op = 0xE → Decodes op (.shl (xOf op) (yOf op))
  | nop8 : famOf op = 0x8 → nOf op ∉ assigned8 → Decodes op (.nop8 (nnnOf op))
  | sneR : famOf op = 0x9 → Decodes op (.sneR (xOf op) (yOf op))
  | ldIndex : famOf op = 0xA → Decodes op (.ldIndex (nnnOf op))
  | jpV0 : famOf op = 0xB → Decodes op (.jpV0 (nnnOf op))
  | rnd : famOf op = 0xC → Decodes op (.rnd (xOf op) (kkOf op))
  | drw : famOf op = 0xD → Decodes op (.drw (xOf op) (yOf op) (nOf op))
  | skp : famOf op = 0xE → nOf op = 0xE → Decodes op (.skp (xOf op))
  | sknp : famOf op = 0xE → nOf op = 0x1 → Decodes op (.sknp (xOf op))
  | nopE : famOf op = 0xE → nOf op ∉ assignedE → Decodes op (.nopE (nnnOf op))
  | ldFromDT : famOf op = 0xF → kkOf op = 0x07 → Decodes op (.ldFromDT (xOf op))
  | ldKey : famOf op = 0xF → kkOf op = 0x0A → Decodes op (.ldKey (xOf op))
  | ldDT : famOf op = 0xF → kkOf op = 0x15 → Decodes op (.ldDT (xOf op))
  | ldST : famOf op = 0xF → kkOf op = 0x18 → Decodes op (.ldST (xOf op))
  | addIndex : famOf op = 0xF → kkOf op = 0x1E → Decodes op (.addIndex (xOf op))
  | ldFont : famOf op = 0xF → kkOf op = 0x29 → Decodes op (.ldFont (xOf op))
  | ldBcd : famOf op = 0xF → kkOf op = 0x33 → Decodes op (.ldBcd (xOf op))
  | ldMem : famOf op = 0xF → kkOf op = 0x55 → Decodes op (.ldMem (xOf op))
  | ldRegs : famOf op = 0xF → kkOf op = 0x65 → Decodes op (.ldRegs (xOf op))
  | nopF : famOf op = 0xF → kkOf op ∉ assignedF → Decodes op (.nopF (nnnOf op))

theorem decodes_decode0 {op : Word} (hf : famOf op = 0x0) : Decodes op (decode0 op) := by
  unfold decode0
  split
  · exact .cls hf ‹_›
  · exact .ret hf ‹_›
  · exact .nop0 hf (by simp_all [assigned0])

theorem decodes_decode8 {op : Word} (hf : famOf op = 0x8) : Decodes op (decode8 op) := by
  unfold decode8
  split
  · exact .ldR hf ‹_›
  · exact .orR hf ‹_›
  · exact .andR hf ‹_›
  · exact .xorR hf ‹_›
  · exact .addR hf ‹_›
  · exact .sub hf ‹_›
  · exact .shr hf ‹_›
  · exact .subn hf ‹_›
  · exact .shl hf ‹_›
  · exact .nop8 hf (by simp_all [assigned8])

theorem decodes_decodeE {op : Word} (hf : famOf op = 0xE) : Decodes op (decodeE op) := by
  unfold decodeE
  split
  · exact .skp hf ‹_›
  · exact .sknp hf ‹_›
  · exact .nopE hf (by simp_all [assignedE])

theorem decodes_decodeF {op : Word} (hf : famOf op = 0xF) : Decodes op (decodeF op) := by
  unfold decodeF
  split
  · exact .ldFromDT hf ‹_›
  · exact .ldKey hf ‹_›
  · exact .ldDT hf ‹_›
  · exact .ldST hf ‹_›
  · exact .addIndex hf ‹_›
  · exact .ldFont hf ‹_›
  · exact .ldBcd hf ‹_›
  · exact .ldMem hf ‹_›
  · exact .ldRegs hf ‹_›
  · exact .nopF hf (by simp_all [assignedF])

theorem decodes_decodeWord (op : Word) : Decodes op (decodeWord op) := by
  unfold decodeWord
  split
  · exact decodes_decode0 ‹_›
  · exact .jp ‹_›
  · exact .call ‹_›
  · exact .seI ‹_›
  · exact .sneI ‹_›
  · exact .seR ‹_›
  · exact .ldI ‹_›
  · exact .addI ‹_›
  · exact decodes_decode8 ‹_›
  · exact .sneR ‹_›
  · exact .ldIndex ‹_›
  · exact .jpV0 ‹_›
  · exact .rnd ‹_›
  · exact .drw ‹_›
  · exact decodes_decodeE ‹_›
  · have hcases := nibble_cases (famOf op)
    exact decodes_decodeF (by simp_all)

/-! ### Encoding what a word decodes to (R71) -/

section
variable {op : Word} {f : Nibble} (hf : famOf op = f)
include hf

theorem encNNN_of_fam : encNNN f (nnnOf op) = op := hf ▸ encNNN_fields op

theorem encXKK_of_fam : encXKK f (xOf op) (kkOf op) = op := hf ▸ encXKK_fields op

theorem encXKK_of_code {k : Byte} (hk : kkOf op = k) : encXKK f (xOf op) k = op := hk ▸ encXKK_of_fam hf

theorem encXYN_of_fam : encXYN f (xOf op) (yOf op) (nOf op) = op := hf ▸ encXYN_fields op

theorem encXYN_of_code {n : Nibble} (hn : nOf op = n) : encXYN f (xOf op) (yOf op) n = op := hn ▸ encXYN_of_fam hf

end

theorem xOf_and (op m : Word) : xOf (op &&& m) = xOf op &&& xOf m := by
  apply BitVec.eq_of_getLsbD_eq; intro i hi; simp [xOf, hi]

theorem yOf_and (op m : Word) : yOf (op &&& m) = yOf op &&& yOf m := by
  apply BitVec.eq_of_getLsbD_eq; intro i hi; simp [yOf, hi]

theorem and_congr_of_or {w : Nat} {a b m : BitVec w} (h : m = 0 ∨ a = b) : a &&& m = b &&& m := by
  rcases h with rfl | rfl
  · rw [BitVec.ofNat_eq_ofNat, BitVec.and_zero, BitVec.and_zero]
  · rfl

/-- Two words agree under a mask if they agree in each field that the mask does not leave out. -/
theorem and_congr_of_fields {a b m : Word} (hf : famOf a = famOf b) (hx : xOf m = 0 ∨ xOf a = xOf b) (hy : yOf m = 0 ∨ yOf a = yOf b)
    (hn : nOf m = 0 ∨ nOf a = nOf b) : a &&& m = b &&& m := by
  rw [← encXYN_fields (a &&& m), ← encXYN_fields (b &&& m)]
  simp only [famOf_and, xOf_and, yOf_and, nOf_and, hf, and_congr_of_or hx, and_congr_of_or hy, and_congr_of_or hn]

theorem encodeWord_and_usedBits {op : Word} {i : Instr} (h : Decodes op i) : encodeWord i &&& usedBits i = op &&& usedBits i := by
  cases h with
  | cls hf hn | ret hf hn => exact and_congr_of_fields hf.symm (.inl rfl) (.inl rfl) (.inr hn.symm)
  | seR hf | sneR hf =>
    exact and_congr_of_fields (m := 0xFFF0) ((famOf_encXYN ..).trans hf.symm) (.inr (xOf_encXYN ..)) (.inr (yOf_encXYN ..)) (.inl rfl)
  | skp hf hn | sknp hf hn =>
    exact and_congr_of_fields (m := 0xFF0F) ((famOf_encXKK ..).trans hf.symm) (.inr (xOf_encXKK ..)) (.inl rfl) 
      (.inr ((nOf_encXKK ..).trans hn.symm))
  | jp hf | call hf | ldIndex hf | jpV0 hf | nop0 hf | nop8 hf | nopE hf | nopF hf =>
    exact congrArg (· &&& 0xFFFF) (encNNN_of_fam hf)
  | seI hf | sneI hf | ldI hf | addI hf | rnd hf => exact congrArg (· &&& 0xFFFF) (encXKK_of_fam hf)
  | drw hf => exact congrArg (· &&& 0xFFFF) (encXYN_of_fam hf)
  | ldR hf hn | orR hf hn | andR hf hn | xorR hf hn | addR hf hn | sub hf hn | shr hf hn | subn hf hn | shl hf hn =>
    exact congrArg (· &&& 0xFFFF) (encXYN_of_code hf hn)
  | ldFromDT hf hk | ldKey hf hk | ldDT hf hk | ldST hf hk | addIndex hf hk | ldFont hf hk | ldBcd hf hk | ldMem hf hk | ldRegs hf hk =>
    exact congrArg (· &&& 0xFFFF) (encXKK_of_code hf hk)

/-- Settles O4: a word's fields make up the word again, but for the bits its row ignores. -/
theorem encodeOfDecodeKeepsUsedBits : Obligations.EncodeOfDecodeKeepsUsedBits :=
  fun op => encodeWord_and_usedBits (decodes_decodeWord op)

/-! ### The rows of the opcode table (R76, R82) -/

theorem wf_of_decodes {op : Word} {i : Instr} (h : Decodes op i) : i.wf = true := by
  cases h
  case nop0 free | nop8 free | nopE free => simpa [Instr.wf, codeNibble_nnnOf] using free
  case nopF free => simpa [Instr.wf, codeByte_nnnOf] using free
  all_goals rfl

/-- A row with an instruction of its own: every word it matches decodes to that instruction, whose row it is. -/
def RowOwns (r : Row) : Prop := ∀ op, r.matches op = true → rowOf (decodeWord op) = r ∧ isNoOp (decodeWord op) = false

theorem RowOwns.of_picks {r : Row} {f : Word → Instr} (h : picks r.mask r.bits f)
    (hf : ∀ op, rowOf (f op) = r ∧ isNoOp (f op) = false := by exact fun _ => ⟨rfl, rfl⟩) : RowOwns r := by
  intro op hmatch
  rw [h op (beq_iff_eq.1 hmatch)]
  exact hf op

theorem instructionRows_own : ∀ r ∈ instructionRows, RowOwns r := by
  simp only [instructionRows, List.forall_mem_append, List.forall_mem_cons]
  exact ⟨⟨⟨.of_picks picks_cls, .of_picks picks_ret, .of_picks picks_jp, .of_picks picks_call, .of_picks picks_seI, .of_picks picks_sneI,
      .of_picks picks_seR, .of_picks picks_sneR, .of_picks picks_ldI, .of_picks picks_addI, .of_picks picks_ldR, .of_picks picks_orR,
      nofun⟩,
    .of_picks picks_andR, .of_picks picks_xorR, .of_picks picks_addR, .of_picks picks_sub, .of_picks picks_shr, .of_picks picks_subn,
    .of_picks picks_shl, .of_picks picks_ldIndex, .of_picks picks_jpV0, .of_picks picks_rnd, .of_picks picks_drw, .of_picks picks_skp,
    nofun⟩,
    .of_picks picks_sknp, .of_picks picks_ldFromDT, .of_picks picks_ldDT, .of_picks picks_ldST, .of_picks picks_ldKey,
    .of_picks picks_addIndex, .of_picks picks_ldFont, .of_picks picks_ldBcd, .of_picks picks_ldMem, .of_picks picks_ldRegs, nofun⟩

/-- The row of an instruction that is no no-op is one of the 34. -/
theorem rowOf_mem_instructionRows {i : Instr} (h : isNoOp i = false) : rowOf i ∈ instructionRows := by
  cases i
  case nop0 | nop8 | nopE | nopF => cases h
  all_goals simp [rowOf, instructionRows]

section
variable {r : Row} {op : Word} {f : Nibble} (hf : famOf op = f)
include hf

theorem matches_of_fam (hm : r.mask = 0xF000) (hb : r.bits = encNNN f 0) : r.matches op = true := by
  rw [Row.matches, hm, and_F000, hf, hb, beq_self_eq_true]

theorem matches_of_nibble {n : Nibble} (hn : nOf op = n) (hm : r.mask = 0xF00F) (hb : r.bits = encXYN f 0 0 n) :
    r.matches op = true := by
  rw [Row.matches, hm, and_F00F, hf, hn, hb, beq_self_eq_true]

theorem matches_of_byte {k : Byte} (hk : kkOf op = k) (hm : r.mask = 0xF0FF) (hb : r.bits = encXKK f 0 k) : r.matches op = true := by
  rw [Row.matches, hm, and_F0FF, hf, hk, hb, beq_self_eq_true]

end

/-- A word is of the row of the instruction it decodes to. -/
theorem matches_of_decodes {op : Word} {i : Instr} (h : Decodes op i) : (rowOf i).matches op = true := by
  cases h with
  | jp hf | call hf | seI hf | sneI hf | seR hf | sneR hf | ldI hf | addI hf | ldIndex hf | jpV0 hf | rnd hf | drw hf | nop0 hf | nop8 hf
  | nopE hf | nopF hf => exact matches_of_fam hf rfl rfl
  | cls hf hn | ret hf hn | ldR hf hn | orR hf hn | andR hf hn | xorR hf hn | addR hf hn | sub hf hn | shr hf hn | subn hf hn | shl hf hn
  | skp hf hn | sknp hf hn => exact matches_of_nibble hf hn rfl rfl
  | ldFromDT hf hk | ldDT hf hk | ldST hf hk | ldKey hf hk | addIndex hf hk | ldFont hf hk | ldBcd hf hk | ldMem hf hk | ldRegs hf hk =>
    exact matches_of_byte hf hk rfl rfl

/-- The catch-all rows test the family alone. -/
theorem matches_catchAll (op : Word) : ∀ r ∈ catchAllRows, r.matches op = (encNNN (famOf op) 0 == r.bits) := by
  intro r hr
  have mask : r.mask = 0xF000 := (show ∀ r ∈ catchAllRows, r.mask = 0xF000 by decide) r hr
  rw [Row.matches, mask, and_F000]

/-- The first catch-all row that a word matches is that of the no-op it decodes to. -/
theorem find?_catchAllRows {op : Word} {i : Instr} (h : Decodes op i) (hi : isNoOp i = true) :
    catchAllRows.find? (fun r => r.matches op) = some (rowOf i) := by
  rw [List.find?_congr (matches_catchAll op)]
  cases h
  case nop0 hf _ | nop8 hf _ | nopE hf _ | nopF hf _ =>
    rw [hf]
    rfl
  all_goals cases hi

/-- Settles O2: a row of the 34 that a word matches is the row of what it decodes to, so there is at most one; with none, the word
decodes to a no-op and the catch-all row of its family is the first. -/
theorem decodeFollowsTable : Obligations.DecodeFollowsTable := by
  refine ⟨fun op => ⟨wf_of_decodes (decodes_decodeWord op), ?firstRow⟩, fun op r hr q hq hmr hmq => ?disjoint⟩
  case disjoint =>
    obtain ⟨row_r, -⟩ := instructionRows_own r hr op hmr
    obtain ⟨row_q, -⟩ := instructionRows_own q hq op hmq
    exact row_r.symm.trans row_q
  case firstRow =>
    rw [opcodeRows, List.find?_append]
    cases found : instructionRows.find? (fun r => r.matches op) with
    | some r =>
      have hmatch : r.matches op = true := List.find?_some (p := fun r : Row => r.matches op) found
      obtain ⟨row, -⟩ := instructionRows_own r (List.mem_of_find?_eq_some found) op hmatch
      rw [row]
      rfl
    | none =>
      have no_match := List.find?_eq_none.1 found
      have noOp : isNoOp (decodeWord op) = true := by
        by_contra other
        exact no_match _ (rowOf_mem_instructionRows (Bool.eq_false_iff.2 other)) (matches_of_decodes (decodes_decodeWord op))
      exact find?_catchAllRows (decodes_decodeWord op) noOp

/-! ### The unassigned codes (R78, R95) -/

theorem mem_of_not_mem_assigned0 : ∀ n : Nibble,
    n ∉ assigned0 → n ∈ [0x1, 0x2, 0x3, 0x4, 0x5, 0x6, 0x7, 0x8, 0x9, 0xA, 0xB, 0xC, 0xD, 0xF] := by decide

theorem mem_of_not_mem_assigned8 : ∀ n : Nibble, n ∉ assigned8 → n ∈ [0x8, 0x9, 0xA, 0xB, 0xC, 0xD, 0xF] := by decide

theorem mem_of_not_mem_assignedE : ∀ n : Nibble,
    n ∉ assignedE → n ∈ [0x0, 0x2, 0x3, 0x4, 0x5, 0x6, 0x7, 0x8, 0x9, 0xA, 0xB, 0xC, 0xD, 0xF] := by decide

theorem unassigned_of_isNoOp {op : Word} {i : Instr} (h : Decodes op i) (hi : isNoOp i = true) : unassigned op := by
  cases h
  case nop0 hf free => exact .inl ⟨hf, mem_of_not_mem_assigned0 _ free⟩
  case nop8 hf free => exact .inr (.inl ⟨hf, mem_of_not_mem_assigned8 _ free⟩)
  case nopE hf free => exact .inr (.inr (.inl ⟨hf, mem_of_not_mem_assignedE _ free⟩))
  case nopF hf free => exact .inr (.inr (.inr ⟨hf, free⟩))
  all_goals cases hi

/-- A step on an unassigned code samples, advances and ticks. -/
theorem step_of_unassigned {s : State} {op : Word} (hf : fetch s = .ok op) (h : unassigned op) : step s = .next s.sample.advance.tick :=
  step_of_exec hf (exec_of_isNoOp (isNoOp_of_unassigned h) _)

/-- Settles O12: phase 3 of an unassigned code leaves the state that phase 2 left. -/
theorem noOpOnlyAdvancesAndTicks : Obligations.NoOpOnlyAdvancesAndTicks := by
  refine ⟨fun op => ⟨isNoOp_of_unassigned, unassigned_of_isNoOp (decodes_decodeWord op)⟩, fun code s => ⟨rfl, rfl, rfl, rfl⟩,
    fun s op hf h => ⟨_, step_of_unassigned hf h, ?_⟩⟩
  exact ⟨rfl, tickTimer_toNat s.DT, tickTimer_toNat s.ST, fun _ _ => rfl, rfl, ⟨rfl, rfl⟩, rfl, fun _ => rfl⟩

/-! ### Other words of the assigned rows (R77) -/

/-- Settles O5: the family and, where there is a second level, the low nibble select the instruction, whatever the other bits. -/
theorem aliasesDecode : Obligations.AliasesDecode := by
  refine ⟨fun op hf hn => ?_, fun op hf hn => ?_, fun op hf => ?_, fun op hf => ?_, fun op hf hn => ?_, fun op hf hn => ?_,
    picks_cls 0 rfl⟩
  all_goals
    obtain ⟨fam0, -, -, -, -, fam5, -, -, -, fam9, -, -, -, -, famE, -⟩ := decodeWord_fam op
    obtain ⟨cls, ret, skp, sknp⟩ := decode0E_assigned op
  · exact (fam0 hf).trans (cls hn)
  · exact (fam0 hf).trans (ret hn)
  · exact fam5 hf
  · exact fam9 hf
  · exact (famE hf).trans (skp hn)
  · exact (famE hf).trans (sknp hn)

/-- Settles O6: each word is the canonical one of its instruction. -/
theorem sampleWordsDecode : Obligations.SampleWordsDecode :=
  ⟨decodeWord_encodeWord (i := .cls) rfl, decodeWord_encodeWord (i := .jp 0xABC) rfl, decodeWord_encodeWord (i := .seI 0xA 0x42) rfl,
    decodeWord_encodeWord (i := .seR 0x1 0x2) rfl, decodeWord_encodeWord (i := .sub 0x1 0x2) rfl,
    decodeWord_encodeWord (i := .drw 0x0 0x1 0x5) rfl, decodeWord_encodeWord (i := .skp 0x2) rfl,
    decodeWord_encodeWord (i := .ldMem 0x2) rfl⟩

end Sys2Proof.Machine
end

section
/-! PROOFS. Memory, timers and the framebuffer over more than one access (43_index_memory.md, 44_display.md, 45_keypad_timers.md): a block
of registers stored and read back, by a load or by the fetch; the font and the first word after reset; the timer moves; a sprite drawn
twice. -/

namespace Sys2Proof.Machine

/-! ### LD [I], and what reads the block it stores (R134, R62) -/

theorem readByte_storeRegs (a n : Nat) (s : State) (r : Reg) (hr : r.toNat < n) :
    (storeBytes a (s.regBytes n) s).readByte (a + r.toNat) = s.getV r := by
  rw [readByte_storeBytes_at _ a s r.toNat (by rwa [regBytes_length]), regBytes_getElem, BitVec.ofNat_toNat, BitVec.setWidth_eq]

/-- Settles O28: the block stored is the registers; a load reads the bytes they stand in. -/
theorem storeRegistersAtIndex : Obligations.StoreRegistersAtIndex := by
  obtain ⟨-, load, -⟩ := loadRegistersFromIndex
  refine ⟨picks_ldMem, fun x s h => ?stores, fun x s h => ?faults⟩
  case stores =>
    have stored (r : Reg) (hr : r.toNat ≤ x.toNat) := readByte_storeRegs s.I.toNat (x.toNat + 1) s r (Nat.lt_succ_of_le hr)
    refine ⟨_, (exec_ldMem x s).trans (accessing_ok _ (.inr h)), stored, onlyMem_storeRegs _ _ s, fun v hI hmem => ?loadsBack⟩
    obtain ⟨w, hw, loaded, -⟩ := load x v (hI ▸ h)
    exact ⟨w, hw, fun r hr => by rw [loaded r hr, hmem, hI, stored r hr]⟩
  case faults => exact (exec_ldMem x s).trans (accessing_bad _ (Nat.succ_ne_zero _) (by omega))

/-- Settles O44: both fetched bytes are bytes of the stored block. -/
theorem fetchSeesStore : Obligations.FetchSeesStore := by
  intro x k s t h hpc hk
  obtain ⟨rfl, range⟩ := accessing_next ((exec_ldMem x s).symm.trans h)
  have hx := x.isLt
  have next_k : (k + 1).toNat = k.toNat + 1 := by
    rw [BitVec.toNat_add]
    exact Nat.mod_eq_of_lt (by show k.toNat + 1 < 16; omega)
  have stored (r : Reg) (hr : r.toNat ≤ x.toNat) := readByte_storeRegs s.I.toNat (x.toNat + 1) s r (Nat.lt_succ_of_le hr)
  rw [fetch_ok (by rw [storeBytes_pc]; omega), storeBytes_pc, ← hpc, stored k (by omega), Nat.add_assoc, ← next_k,
    stored (k + 1) (by omega)]

/-! ### After reset: the first word and the font (R193, R33) -/

/-- Settles O51: the load puts the two bytes where reset puts `pc`. -/
theorem bootFetchesFirstWord : Obligations.BootFetchesFirstWord := by
  intro hi lo rest s t h
  obtain rfl := eq_storeBytes_of_loadProgram h
  have hpc : (storeBytes 0x200 (hi :: lo :: rest) (hostReset s)).pc = 0x0200 := by rw [storeBytes_pc, hostReset_pc]
  have stored := readByte_storeBytes_at (hi :: lo :: rest) 0x200 (hostReset s)
  refine ⟨hpc, ?_⟩
  rw [fetch_ok (by rw [hpc]; decide), hpc]
  exact congrArg Except.ok (congrArg₂ wordOfBytes (stored 0 (by simp)) (stored 1 (by simp)))

/-- Settles O53: the address LD F gives is in the font's range, where the reset contents are the font. -/
theorem glyphOfDigit : Obligations.GlyphOfDigit := by
  intro x v s _
  refine ⟨_, exec_ldFont x _, fun k h _ => ?_⟩
  show resetByte s.font ((glyphAddr (((hostReset s).setV x v).getV x)).toNat + k) = _
  rw [State.getV_setV_self, glyphAddr_toNat, Nat.add_assoc]
  exact resetByte_font s.font (5 * v.toNat + k) h

/-- Settles O52: the two bytes make the word 0, which is CLS. -/
theorem zeroedMemoryClears : Obligations.ZeroedMemoryClears := by
  intro s hpc hi lo
  have zero : fetch s = .ok 0 := by
    rw [fetch_ok hpc, hi, lo]
    rfl
  have clears : exec (decodeWord 0) s.sample.advance = .next s.sample.advance.cleared := by
    rw [picks_cls 0 rfl]
    exact exec_cls _
  exact ⟨_, step_of_exec zero clears, rfl, s.sample.advance.pixel_cleared, rfl⟩

/-! ### The timer moves (R153 to R155) -/

theorem exec_ldFromDT (x : Reg) (s : State) : exec (.ldFromDT x) s = .next (s.setV x s.DT) := rfl
theorem exec_ldDT (x : Reg) (s : State) : exec (.ldDT x) s = .next { s with DT := s.getV x } := rfl
theorem exec_ldST (x : Reg) (s : State) : exec (.ldST x) s = .next { s with ST := s.getV x } := rfl

/-- Settles O35: each is one write, and the tick of the same step acts on what it left. -/
theorem timerMoves : Obligations.TimerMoves := by
  refine ⟨picks_ldFromDT, picks_ldDT, picks_ldST, fun x s => ⟨_, exec_ldFromDT x s, ?fromDT⟩, fun x s => ⟨_, exec_ldDT x s, ?toDT⟩,
    fun x s => ⟨_, exec_ldST x s, ?toST⟩⟩
  case fromDT =>
    exact ⟨s.getV_setV_self x _, onlyRegs_setV s x _, s.getV_setV_self x _, tickTimer_toNat s.DT⟩
  case toDT => exact ⟨rfl, rfl, onlyTimers_set s _ s.ST, tickTimer_toNat _⟩
  case toST =>
    exact ⟨rfl, rfl, onlyTimers_set s s.DT _, tickTimer_toNat _, State.tick_toneOn_iff _, State.tick_toneStop_iff _⟩

/-! ### A sprite drawn twice (R141 to R143) -/

section
variable (s : State) (X Y n : Nat)

/-- A draw changes neither memory nor `I`, so the sprite is the same in a second one. -/
theorem spriteAt_drawSprite (r c : Nat) : (s.drawSprite X Y n).spriteAt X Y n r c = s.spriteAt X Y n r c := rfl

/-- The second draw inverts each pixel that the first inverted. -/
theorem pixel_drawSprite_twice (r c : Nat) : ((s.drawSprite X Y n).drawSprite X Y n).pixel r c = s.pixel r c := by
  rw [pixel_drawSprite, pixel_drawSprite, spriteAt_drawSprite, Bool.xor_assoc, Bool.xor_self, Bool.xor_false]

/-- The second draw turns off just what the first lit. -/
theorem collides_again_iff : (s.drawSprite X Y n).collides X Y n = true ↔
    ∃ r c, r < 32 ∧ c < 64 ∧ s.pixel r c = false ∧ (s.drawSprite X Y n).pixel r c = true := by
  simp only [collides_iff_turnsOff, pixel_drawSprite_twice, and_comm (a := State.pixel _ _ _ = true)]

/-- A draw that turned nothing off lit every pixel under a set sprite bit. -/
theorem collides_again_iff_of_not_collides (h : s.collides X Y n = false) : (s.drawSprite X Y n).collides X Y n = true ↔
    ∃ k j, k < n ∧ j < 8 ∧ Y + k < 32 ∧ X + j < 64 ∧ s.spriteBit k j = true := by
  rw [collides_again_iff]
  constructor
  · rintro ⟨r, c, hr, hc, dark, lit⟩
    rw [pixel_drawSprite_of_dark s X Y n dark hr hc] at lit
    obtain ⟨k, j, hk, hj, rfl, rfl, bit⟩ := (spriteAt_iff s X Y n r c).1 lit
    exact ⟨k, j, hk, hj, hr, hc, bit⟩
  · rintro ⟨k, j, hk, hj, hr, hc, bit⟩
    have dark : s.pixel (Y + k) (X + j) = false := by
      by_contra lit
      exact Bool.eq_false_iff.1 h ((collides_iff s X Y n).2 ⟨k, j, hk, hj, Bool.eq_true_of_not_eq_false lit, bit⟩)
    refine ⟨Y + k, X + j, hr, hc, dark, ?_⟩
    rw [pixel_drawSprite_of_dark s X Y n dark hr hc, spriteAt_of s hk hj, bit]

end

theorem flagByte_eq_zero (f : Bool) : flagByte f = 0 ↔ f = false := by cases f <;> simp [flagByte]

/-- Settles O32: the two draws have one sprite at one place, since the first writes neither `V[x]` nor `V[y]`. -/
theorem drawTwiceRestores : Obligations.DrawTwiceRestores := by
  intro x y n s t u hx hy ht hu
  obtain ⟨rfl, -⟩ := accessing_next ((exec_drw x y n s).symm.trans ht)
  obtain ⟨rfl, -⟩ := accessing_next ((exec_drw x y n _).symm.trans hu)
  rw [getV_drawSprite s _ _ _ x, getV_drawSprite s _ _ _ y, flagReg_eq, if_neg hx, if_neg hy]
  generalize (s.getV x).toNat % 64 = X, (s.getV y).toNat % 32 = Y, n.toNat = n
  rw [getV_flag_drawSprite, getV_flag_drawSprite, flagByte_eq_one, flagByte_eq_zero, flagByte_eq_zero, collides_again_iff]
  refine ⟨pixel_drawSprite_twice s X Y n, fun same => ?same, Iff.rfl, fun none => ?none⟩
  case same =>
    rw [Bool.eq_false_iff, Ne, collides_again_iff]
    rintro ⟨r, c, -, -, dark, lit⟩
    rw [State.pixel_congr same, dark] at lit
    cases lit
  case none =>
    rw [← collides_again_iff]
    exact collides_again_iff_of_not_collides s X Y n none

end Sys2Proof.Machine
end

section
/-! PROOFS. A step as a function of what it reads (40_step_cycle.md R90 to R97, 60_exceptions.md R171, R173): its phases, its fault, the
inputs and which instructions they reach, and the fields beside the core's state, which nothing observes (10_state.md R20, R36). -/

namespace Sys2Proof.Machine

/-! ### The phases (R90) -/

/-- Settles O9: `fetch_ok` gives the word, and the sampled and advanced state is the one written out. -/
theorem stepRunsDecodedInstruction : Obligations.StepRunsDecodedInstruction := by
  intro s i hpc hdecode
  obtain ⟨rfl, -⟩ := Prod.mk.inj (Except.ok.inj hdecode)
  exact step_of_fetch (fetch_ok hpc)

/-! ### The fault of a step (R161, R171) -/

theorem step_fault_iff (s : State) (f : Fault) : step s = .fault f ↔
    (4095 ≤ s.pc.toNat ∧ f = .fetchRange (max s.pc.toNat 4096)) ∨ (∃ op, fetch s = .ok op ∧ faultOf (decodeWord op) s = some f) := by
  rcases Nat.lt_or_ge s.pc.toNat 4095 with lt | ge
  · have word := fetch_ok lt
    rw [(step_faultsAs word).fault_iff]
    constructor
    · exact fun h => .inr ⟨_, word, h⟩
    · rintro (⟨ge, -⟩ | ⟨op, hf, h⟩)
      · omega
      · cases word.symm.trans hf
        exact h
  · rw [step_of_pc_ge ge]
    constructor
    · rintro ⟨⟩
      exact .inl ⟨ge, rfl⟩
    · rintro (⟨-, rfl⟩ | ⟨op, hf, -⟩)
      · rfl
      · exact absurd (pc_lt_of_fetch hf) (by omega)

/-- Settles O36: phase 3 answers the listed fault, and a step faults at the fetch or in phase 3. -/
theorem faultsExactlyAsListed : Obligations.FaultsExactlyAsListed :=
  ⟨fun i s f => (exec_faultsAs i s).fault_iff f, step_fault_iff⟩

/-! ### An ignored fault (R173) -/

/-- No cause of a fault depends on the inputs. -/
theorem stepWith_fault_iff (inp : StepInput) (s : State) (f : Fault) : stepWith inp s = .fault f ↔ step s = .fault f :=
  (step_fault_iff { s with pending := inp :: s.pending } f).trans (step_fault_iff s f).symm

theorem serveAll_steps_of_fault {s : State} {f : Fault} (h : step s = .fault f) (inps : List StepInput) :
    serveAll (inps.map Request.step) s = s := by
  induction inps with
  | nil => rfl
  | cons inp inps ih =>
    rw [List.map_cons, serveAll, serve_step_of_fault ((stepWith_fault_iff inp s f).2 h)]
    exact ih

/-- Settles O39: the fault leaves the state it came from, from which every further step faults alike. -/
theorem ignoredFaultRepeats : Obligations.IgnoredFaultRepeats := by
  intro inps inp inp' s t code info h
  obtain ⟨rfl, f, hfault, rfl, rfl⟩ := serve_step_fault h
  have hstep := (stepWith_fault_iff inp t f).1 hfault
  rw [serveAll_steps_of_fault hstep, serve_step_of_fault ((stepWith_fault_iff inp' t f).2 hstep)]

/-! ### Who reads the inputs (R96) -/

/-- The state with another sample of the inputs. -/
def State.withInputs (s : State) (k : Keys) (r : Byte) : State := { s with key := k, rnd := r }

theorem storeBytes_withInputs (k : Keys) (r : Byte) (bs : List Byte) :
    ∀ (addr : Nat) (s : State), storeBytes addr bs (s.withInputs k r) = (storeBytes addr bs s).withInputs k r := by
  induction bs with
  | nil => exact fun _ _ => rfl
  | cons v bs ih => exact fun addr s => ih (addr + 1) (s.writeByte addr v)

theorem loadRegs_withInputs (k : Keys) (r : Byte) (n : Nat) (s : State) :
    loadRegs n (s.withInputs k r) = (loadRegs n s).withInputs k r := by
  induction n with
  | zero => rfl
  | succ n ih =>
    rw [loadRegs, ih]
    rfl

theorem skipIf_withInputs (k : Keys) (r : Byte) (s : State) (c : Bool) :
    (s.withInputs k r).skipIf c = (s.skipIf c).withInputs k r := by
  cases c <;> rfl

theorem popReturn_withInputs (k : Keys) (r : Byte) (s : State) :
    popReturn (s.withInputs k r) = mapNext (fun t => t.withInputs k r) (popReturn s) := by
  by_cases empty : s.sp.val = 0
  · rw [popReturn_empty empty, popReturn_empty (s := s.withInputs k r) empty]
    rfl
  · rw [popReturn_ok empty (sp_pred_lt s), popReturn_ok (s := s.withInputs k r) empty (sp_pred_lt s)]
    rfl

theorem pushAndJump_withInputs (k : Keys) (r : Byte) (s : State) (p : Word) :
    pushAndJump (s.withInputs k r) p = mapNext (fun t => t.withInputs k r) (pushAndJump s p) := by
  by_cases room : s.sp.val < Config.stackDepth
  · rw [pushAndJump_ok room, pushAndJump_ok (s := s.withInputs k r) room]
    rfl
  · rw [pushAndJump_full room, pushAndJump_full (s := s.withInputs k r) room]
    rfl

/-- A key skip reads the keys: with the same keys, and another random byte, it does the same. -/
theorem skipOnKey_withInputs (r : Byte) (x : Reg) (pressed : Bool) (s : State) :
    skipOnKey x pressed (s.withInputs s.key r) = mapNext (fun t => t.withInputs s.key r) (skipOnKey x pressed s) := by
  rcases Nat.lt_or_ge 15 (s.getV x).toNat with gt | le
  · rw [skipOnKey_of_gt gt, skipOnKey_of_gt (s := s.withInputs s.key r) gt]
    rfl
  · rw [skipOnKey_of_le le, skipOnKey_of_le (s := s.withInputs s.key r) le, skipIf_withInputs]
    rfl

/-- So does the key wait. -/
theorem exec_ldKey_withInputs (r : Byte) (x : Reg) (s : State) :
    exec (.ldKey x) (s.withInputs s.key r) = mapNext (fun t => t.withInputs s.key r) (exec (.ldKey x) s) := by
  cases h : s.lowestKey with
  | some b =>
    rw [exec_ldKey_of_some h, exec_ldKey_of_some (s := s.withInputs s.key r) h]
    rfl
  | none =>
    rw [exec_ldKey_of_none h, exec_ldKey_of_none (s := s.withInputs s.key r) h]
    rfl

/-- An instruction does the same with another sample that agrees in the inputs it reads. -/
theorem exec_withInputs (i : Instr) (s : State) (k : Keys) (r : Byte) (hk : readsKeys i = true → k = s.key)
    (hr : readsRandom i = true → r = s.rnd) : exec i (s.withInputs k r) = mapNext (fun t => t.withInputs k r) (exec i s) := by
  have access (n : Nat) (t : State) := accessing_map (fun t => t.withInputs k r) s n t rfl
  cases i
  case ret => exact popReturn_withInputs k r s
  case call nnn => exact pushAndJump_withInputs k r s (zextAddr nnn)
  case seI | sneI | seR | sneR => exact congrArg Host.Outcome.next (skipIf_withInputs k r s _)
  case skp x =>
    obtain rfl := hk rfl
    exact skipOnKey_withInputs r x true s
  case sknp x =>
    obtain rfl := hk rfl
    exact skipOnKey_withInputs r x false s
  case ldKey x =>
    obtain rfl := hk rfl
    exact exec_ldKey_withInputs r x s
  case rnd =>
    obtain rfl := hr rfl
    rfl
  case drw x y n => exact access n.toNat (s.drawSprite ((s.getV x).toNat % 64) ((s.getV y).toNat % 32) n.toNat)
  case ldBcd x =>
    rw [exec_ldBcd, exec_ldBcd, ← access, ← storeBytes_withInputs]
    rfl
  case ldMem x =>
    rw [exec_ldMem, exec_ldMem, ← access, ← storeBytes_withInputs]
    rfl
  case ldRegs x => rw [exec_ldRegs, exec_ldRegs, ← access, loadRegs_withInputs]
  all_goals rfl

theorem mapNext_congr {f g : State → State} {o : Outcome} (h : ∀ t, o = .next t → f t = g t) : mapNext f o = mapNext g o := by
  cases o with
  | next t => exact congrArg Host.Outcome.next (h t rfl)
  | fault e => rfl
  | refused r => rfl

/-- Settles O40: `exec_withInputs`, with the other input left as it was. -/
theorem inputsReachOnlyTheirReaders : Obligations.InputsReachOnlyTheirReaders := by
  intro i s k r
  refine ⟨fun no => ?keys, fun no => ?random⟩
  case keys =>
    refine (exec_withInputs i s k s.rnd (fun yes => absurd yes (Bool.eq_false_iff.1 no)) fun _ => rfl).trans (mapNext_congr fun t h => ?_)
    obtain ⟨-, -, rnd, -⟩ := sameBoundary_of_exec h
    rw [State.withInputs, ← rnd]
  case random =>
    refine (exec_withInputs i s s.key r (fun _ => rfl) fun yes => absurd yes (Bool.eq_false_iff.1 no)).trans (mapNext_congr fun t h => ?_)
    obtain ⟨-, key, -⟩ := sameBoundary_of_exec h
    rw [State.withInputs, ← key]

/-! ### The sample, and the fields that only carry inputs and outputs (R96, R97) -/

/-- Phase 4 writes the tone outputs whatever they were, so phases 3 and 4 do not depend on the earlier ones. -/
theorem finishStep_exec_withTones (i : Instr) (s : State) (a b : Bool) :
    finishStep (exec i (s.withCarried s.pending s.draws a b)) = finishStep (exec i s) := by
  rw [exec_withCarried]
  cases h : exec i s with
  | next t =>
    obtain ⟨-, -, -, pending, draws, -⟩ := sameBoundary_of_exec h
    rw [← pending, ← draws]
    rfl
  | fault f => rfl
  | refused r => rfl

/-- A step depends on the fetch and on what phases 3 and 4 make of the sampled and advanced state. -/
theorem step_congr {s t : State} (hfetch : fetch t = fetch s)
    (h : ∀ i, finishStep (exec i t.sample.advance) = finishStep (exec i s.sample.advance)) : step t = step s := by
  rw [step, step, hfetch]
  cases fetch s with
  | error f => rfl
  | ok op => exact h (decodeWord op)

/-- The sample overwrites the earlier one. -/
theorem step_withEarlier (s : State) (k : Keys) (r : Byte) (a b : Bool) :
    step { s with key := k, rnd := r, toneOn := a, toneStop := b } = step s :=
  step_congr rfl fun i => finishStep_exec_withTones i s.sample.advance a b

theorem stepWith_nextInput (s : State) : stepWith s.nextInput { s with pending := s.pending.tail } = step s := step_congr rfl fun _ => rfl

/-- Settles O41: phase 3 leaves the inputs as they were sampled. -/
theorem stepDependsOnSampledInputs : Obligations.StepDependsOnSampledInputs := by
  refine ⟨step_withEarlier, stepWith_nextInput, fun s t h => ?_⟩
  obtain ⟨op, u, -, hexec, rfl⟩ := step_next h
  obtain ⟨font, key, rnd, pending, draws, -⟩ := sameBoundary_of_exec hexec
  exact ⟨key, rnd, pending, draws, font⟩

/-! ### The core's state alone (R20, R97) -/

/-- What a step gives of its state does not depend on the inputs supplied for later ones, the count of draws or the earlier outputs. -/
theorem stepResult_step_congr {s t : State} {p : List StepInput} {d : Nat} {a b : Bool} (hfetch : fetch t = fetch s)
    (hsampled : t.sample.advance = s.sample.advance.withCarried p d a b) : stepResult (step t) = stepResult (step s) := by
  rw [step, step, hfetch]
  cases fetch s with
  | error f => rfl
  | ok op =>
    show stepResult (finishStep (exec (decodeWord op) t.sample.advance)) = stepResult (finishStep (exec (decodeWord op) s.sample.advance))
    rw [hsampled, exec_withCarried]
    cases exec (decodeWord op) s.sample.advance <;> rfl

/-- Settles O54: `coreStep` runs a state that, once sampled, differs from the sampled state in the carried fields alone. -/
theorem stepIsFunctionOfCoreAndInputs : Obligations.StepIsFunctionOfCoreAndInputs :=
  fun s => (stepResult_step_congr (s := s) (p := []) (d := 1) (a := false) (b := false)
    (t := { State.reset with toCoreState := s.toCoreState, font := s.font, pending := [s.nextInput] }) rfl rfl).symm

theorem stepResult_stepWith (inp : StepInput) (s : State) : stepResult (stepWith inp s) = coreStep s.font inp s.toCoreState :=
  stepIsFunctionOfCoreAndInputs { s with pending := inp :: s.pending }

/-! ### What the host is answered (R195, R36) -/

/-- The host's answer to a step, from the step's result. -/
def stepResponse : Host.Outcome StepOk Fault Refusal → Response
  | .next k => .stepOk k.toneOn k.toneStop
  | .fault f => .stepFault f.code f.info
  | .refused _ => .stepRefused

/-- The core's state after a step from the core's state `c`, from the step's result. -/
def coreAfter (c : CoreState) : Host.Outcome StepOk Fault Refusal → CoreState
  | .next k => k.core
  | .fault _ => c
  | .refused _ => c

theorem serve_step_response (inp : StepInput) (s : State) :
    (serve (.step inp) s).2 = stepResponse (coreStep s.font inp s.toCoreState) := by
  rw [← stepResult_stepWith, serve]
  cases stepWith inp s <;> rfl

theorem serve_step_core (inp : StepInput) (s : State) :
    (serve (.step inp) s).1.toCoreState = coreAfter s.toCoreState (coreStep s.font inp s.toCoreState) := by
  rw [← stepResult_stepWith, serve]
  cases stepWith inp s <;> rfl

/-- The font is a parameter: no request writes it. -/
theorem serve_font (req : Request) (s : State) : (serve req s).1.font = s.font := by
  cases req with
  | reset => rfl
  | loadProgram bytes =>
    cases e : loadProgram bytes s with
    | ok t =>
      simp only [serve, e]
      rw [eq_storeBytes_of_loadProgram e, storeBytes_fields]
    | error f => simp only [serve, e]
  | step inp =>
    cases e : stepWith inp s with
    | next t =>
      obtain ⟨-, -, sampled⟩ := stepDependsOnSampledInputs
      obtain ⟨-, -, -, -, font⟩ := sampled _ t e
      simp only [serve, e]
      exact font
    | fault f => simp only [serve, e]
    | refused r => simp only [serve, e]

section
variable {s t : State} (hcore : s.toCoreState = t.toCoreState) (hfont : s.font = t.font)
include hcore hfont

/-- Machines with the same core state and font give the same answer to a request, and are left with the same core state. -/
theorem serve_congr (req : Request) :
    (serve req s).2 = (serve req t).2 ∧ (serve req s).1.toCoreState = (serve req t).1.toCoreState := by
  cases req with
  | reset => exact ⟨rfl, rfl⟩
  | loadProgram bytes =>
    rcases Nat.lt_or_ge 3584 bytes.length with large | fits
    · rw [serve_loadProgram_of_error (loadProgram_error large), serve_loadProgram_of_error (loadProgram_error large)]
      exact ⟨rfl, hcore⟩
    · simp only [serve, loadProgram_ok fits, true_and]
      exact storeBytes_core_congr bytes 0x200 hcore hfont
  | step inp =>
    rw [serve_step_response, serve_step_response, serve_step_core, serve_step_core, hcore, hfont]
    exact ⟨rfl, rfl⟩

end

/-- So they are after any sequence of requests. -/
theorem serveAll_congr (reqs : List Request) : ∀ {s t : State}, s.toCoreState = t.toCoreState → s.font = t.font →
    (serveAll reqs s).toCoreState = (serveAll reqs t).toCoreState ∧ (serveAll reqs s).font = (serveAll reqs t).font := by
  induction reqs with
  | nil => exact fun hcore hfont => ⟨hcore, hfont⟩
  | cons req reqs ih =>
    intro s t hcore hfont
    obtain ⟨-, core⟩ := serve_congr hcore hfont req
    exact ih core (by rw [serve_font, serve_font, hfont])

/-- Settles O55: by induction on the requests, the core's state and the font stay the same, and every reading is of the core's state. -/
theorem hostSeesOnlyCoreState : Obligations.HostSeesOnlyCoreState := by
  intro reqs req s t hcore hfont
  obtain ⟨core, font⟩ := serveAll_congr reqs hcore hfont
  obtain ⟨answer, -⟩ := serve_congr core font req
  exact ⟨answer, by rw [hostView, hostView, core], core⟩

end Sys2Proof.Machine
end
